-- ==== Sys2Proof/Word.lean ====
section
/-!
DEFINITION. The word types of the badcpu core: every register and memory cell but the condition
flag is a byte (10_state R10, R11), an address is a bank byte and an address byte (20_memory R30).
-/
namespace Sys2Proof

/-- An 8-bit register or memory cell (10_state R11). -/
abbrev Byte := BitVec 8

/-- The immediate nibble of `immd` (30_encoding R53). -/
abbrev Nibble := BitVec 4

/-- A 2-bit field: a selector, a sub-opcode, a group of `mix` (30_encoding R52, 45_incdec_mix R112). -/
abbrev Pair := BitVec 2

/-- A global address, the 16-bit value with the bank as its high byte (20_memory R30, R37). -/
abbrev GlobalAddr := BitVec 16

end Sys2Proof
end

