-- ==== Sys2Proof/Syntax.lean ====
section
/-!
DEFINITION. The instructions of the core: one constructor per row of spec/opcode_table.json
(30_encoding R52, R55).
-/
namespace Sys2Proof

/-- What a 2-bit selector denotes (10_state R18, R19; 30_encoding R54). -/
inductive Sel where
  /-- Selector 0, the accumulator. -/
  | a
  /-- Selector 1, the instruction pointer. -/
  | ip
  /-- Selector 2, the pointer register. -/
  | p
  /-- Selector 3, the memory cell at `bank_P:P`, written `[P]`. -/
  | mem
  deriving DecidableEq, Repr

/-- The two top bits of every instruction byte (30_encoding R51). -/
structure Guard where
  /-- Bit 7: the instruction is executed only if this equals `condition` (40_step R72). -/
  predicate : Bool
  /-- Bit 6: an executed instruction's computed condition replaces `condition` (40_step R74). -/
  commit : Bool
  deriving DecidableEq, Repr

/-- An instruction, its guard first. In `bit` and `onto` the base comes before the arg. -/
inductive Instr where
  /-- `immd N` (41_immd R90). -/
  | immd (g : Guard) (n : Nibble)
  /-- `load` (46_load_nop_halt R120). -/
  | load (g : Guard)
  /-- `nop`, the first no-op encoding (46_load_nop_halt R121). -/
  | nop (g : Guard)
  /-- `nop2`, the second no-op encoding (46_load_nop_halt R122). -/
  | nop2 (g : Guard)
  /-- `halt` (46_load_nop_halt R123). -/
  | halt (g : Guard)
  /-- `mix R` (45_incdec_mix R112). -/
  | mix (g : Guard) (r : Sel)
  /-- `inc R` (45_incdec_mix R110). -/
  | inc (g : Guard) (r : Sel)
  /-- `dec R` (45_incdec_mix R111). -/
  | dec (g : Guard) (r : Sel)
  /-- `bit B R` (42_bit R95). -/
  | bit (g : Guard) (base arg : Sel)
  /-- `bit [P] [P]`, alias `setbp` (44_bankset R105). -/
  | setbp (g : Guard)
  /-- `onto B R` (43_onto R100). -/
  | onto (g : Guard) (base arg : Sel)
  /-- `onto [P] [P]`, alias `setbip` (44_bankset R106). -/
  | setbip (g : Guard)
  deriving DecidableEq, Repr

/-- The two top bits of an instruction. -/
def Instr.guard : Instr → Guard
  | .immd g _ => g
  | .load g => g
  | .nop g => g
  | .nop2 g => g
  | .halt g => g
  | .mix g _ => g
  | .inc g _ => g
  | .dec g _ => g
  | .bit g _ _ => g
  | .setbp g => g
  | .onto g _ _ => g
  | .setbip g => g

end Sys2Proof
end

