-- ==== Sys2Proof/WellFormed.lean ====
section
/-!
DEFINITION. Which terms of `Instr` are instructions of the table under their own row: `bit` and
`onto` with both selectors 3 are the bank sets, rows of their own (30_encoding R52 format K, R57).
-/
namespace Sys2Proof

/-- Both selectors are 3, the corner that the bank sets occupy (30_encoding R52). -/
def Sel.bothMem (base arg : Sel) : Bool :=
  base == .mem && arg == .mem

/-- The well-formed instructions, those that a byte decodes to (30_encoding R55). -/
def Instr.wf : Instr → Bool
  | .immd _ _ => true
  | .load _ => true
  | .nop _ => true
  | .nop2 _ => true
  | .halt _ => true
  | .mix _ _ => true
  | .inc _ _ => true
  | .dec _ _ => true
  | .bit _ base arg => !Sel.bothMem base arg
  | .setbp _ => true
  | .onto _ base arg => !Sel.bothMem base arg
  | .setbip _ => true

end Sys2Proof
end

