-- ==== Sys2Proof/Decode.lean ====
section
/-!
DEFINITION. Decoding an instruction byte (30_encoding R51, R52, R55, R56), the encoder beside it,
and the opcode table as data. Decoding is total: every byte is an instruction (R57).
-/
namespace Sys2Proof

/-- A 2-bit selector field (30_encoding R54). -/
def Sel.ofBits (x : Pair) : Sel :=
  match x.toNat with
  | 0 => .a
  | 1 => .ip
  | 2 => .p
  | _ => .mem

/-- The field value of a selector (30_encoding R54). -/
def Sel.toBits : Sel → Pair
  | .a => 0b00#2
  | .ip => 0b01#2
  | .p => 0b10#2
  | .mem => 0b11#2

/-- Bits 5-4, the major opcode (30_encoding R51). -/
def majorField (ib : Byte) : Pair := ib.extractLsb' 4 2

/-- Bits 3-0, the low nibble (30_encoding R51). -/
def lowField (ib : Byte) : Nibble := ib.extractLsb' 0 4

/-- Bits 3-2, the base selector, or the sub-opcode of major opcode `01` (30_encoding R52). -/
def baseField (ib : Byte) : Pair := ib.extractLsb' 2 2

/-- Bits 1-0, the arg selector, or the function of format Z (30_encoding R52). -/
def argField (ib : Byte) : Pair := ib.extractLsb' 0 2

/-- Bits 7 and 6, the predicate and commit bits (30_encoding R51). -/
def guardField (ib : Byte) : Guard where
  predicate := ib.getLsbD 7
  commit := ib.getLsbD 6

/-- Format Z: bits 1-0 choose among `load`, `nop`, `nop2`, `halt` (30_encoding R52, R56). -/
def decodeZero (g : Guard) (ib : Byte) : Instr :=
  match (argField ib).toNat with
  | 0 => .load g
  | 1 => .nop g
  | 2 => .nop2 g
  | _ => .halt g

/-- Major opcode `01`: bits 3-2 are the sub-opcode (30_encoding R52, R56; `10` is `inc` and `11`
is `dec` by the spec's decision D7). -/
def decodeSingle (g : Guard) (ib : Byte) : Instr :=
  match (baseField ib).toNat with
  | 0 => decodeZero g ib
  | 1 => .mix g (Sel.ofBits (argField ib))
  | 2 => .inc g (Sel.ofBits (argField ib))
  | _ => .dec g (Sel.ofBits (argField ib))

/-- The decoding procedure of 30_encoding R56. -/
def decode (ib : Byte) : Instr :=
  match (majorField ib).toNat with
  | 0 => .immd (guardField ib) (lowField ib)
  | 1 => decodeSingle (guardField ib) ib
  | 2 =>
    if lowField ib = 0b1111#4 then .setbp (guardField ib)
    else .bit (guardField ib) (Sel.ofBits (baseField ib)) (Sel.ofBits (argField ib))
  | _ =>
    if lowField ib = 0b1111#4 then .setbip (guardField ib)
    else .onto (guardField ib) (Sel.ofBits (baseField ib)) (Sel.ofBits (argField ib))

/-- A byte from its fields: predicate, commit, major opcode, bits 3-2, bits 1-0 (30_encoding R51,
R52). -/
def packByte (g : Guard) (major hi lo : Pair) : Byte :=
  BitVec.ofBool g.predicate ++ BitVec.ofBool g.commit ++ major ++ hi ++ lo

/-- The instruction byte of an instruction, from the format table of 30_encoding R52. (`bit` and
`onto` of `[P]` and `[P]` encode to the bytes of the bank sets, as R60 spells those.) -/
def encode : Instr → Byte
  | .immd g n => packByte g 0b00#2 (n.extractLsb' 2 2) (n.extractLsb' 0 2)
  | .load g => packByte g 0b01#2 0b00#2 0b00#2
  | .nop g => packByte g 0b01#2 0b00#2 0b01#2
  | .nop2 g => packByte g 0b01#2 0b00#2 0b10#2
  | .halt g => packByte g 0b01#2 0b00#2 0b11#2
  | .mix g r => packByte g 0b01#2 0b01#2 r.toBits
  | .inc g r => packByte g 0b01#2 0b10#2 r.toBits
  | .dec g r => packByte g 0b01#2 0b11#2 r.toBits
  | .bit g base arg => packByte g 0b10#2 base.toBits arg.toBits
  | .setbp g => packByte g 0b10#2 0b11#2 0b11#2
  | .onto g base arg => packByte g 0b11#2 base.toBits arg.toBits
  | .setbip g => packByte g 0b11#2 0b11#2 0b11#2

/-- The instruction the decoder reads from an instruction whose bits are `w`: the core's
instructions are one byte (30_encoding R50), so only an instruction of 8 bits is read. -/
def decodeTableWord (nbits w : Nat) : Option Instr :=
  if nbits = 8 then some (decode (BitVec.ofNat 8 w)) else none

/-- The rows of the table, by name (30_encoding R60). -/
inductive Mnemonic where
  | immd | load | nop | nop2 | halt | mix | inc | dec | bit | setbp | onto | setbip
  deriving DecidableEq, Repr

/-- The row an instruction belongs to. -/
def Instr.mnemonic : Instr → Mnemonic
  | .immd _ _ => .immd
  | .load _ => .load
  | .nop _ => .nop
  | .nop2 _ => .nop2
  | .halt _ => .halt
  | .mix _ _ => .mix
  | .inc _ _ => .inc
  | .dec _ _ => .dec
  | .bit _ _ _ => .bit
  | .setbp _ => .setbp
  | .onto _ _ _ => .onto
  | .setbip _ => .setbip

/-- One row of spec/opcode_table.json: the byte belongs to the row when its bits under `mask` are
`value`. -/
structure OpcodeRow where
  mnemonic : Mnemonic
  value : Byte
  mask : Byte
  deriving DecidableEq, Repr

/-- The byte's bits under the row's mask are the row's. -/
def OpcodeRow.matchesByte (row : OpcodeRow) (ib : Byte) : Bool :=
  ib &&& row.mask == row.value

/-- The opcode table, rows of larger mask first (30_encoding R56: "A decoder written from the
table must test the rows with the larger mask first"). -/
def opcodeTable : List OpcodeRow :=
  [ ⟨.load, 0x10#8, 0x3F#8⟩, ⟨.nop, 0x11#8, 0x3F#8⟩, ⟨.nop2, 0x12#8, 0x3F#8⟩,
    ⟨.halt, 0x13#8, 0x3F#8⟩, ⟨.setbp, 0x2F#8, 0x3F#8⟩, ⟨.setbip, 0x3F#8, 0x3F#8⟩,
    ⟨.mix, 0x14#8, 0x3C#8⟩, ⟨.inc, 0x18#8, 0x3C#8⟩, ⟨.dec, 0x1C#8, 0x3C#8⟩,
    ⟨.immd, 0x00#8, 0x30#8⟩, ⟨.bit, 0x20#8, 0x30#8⟩, ⟨.onto, 0x30#8, 0x30#8⟩ ]

/-- The first row of the table that the byte matches. -/
def tableLookup (ib : Byte) : Option Mnemonic :=
  (opcodeTable.find? fun row => row.matchesByte ib).map OpcodeRow.mnemonic

end Sys2Proof
end

