-- ==== Sys2Proof/Config.lean ====
section
/-!
DEFINITION. The parameters of 00_scope R5 that a step of the core depends on. The other two
parameters are arguments of the host's operations in Sys2Proof/Machine/HostControl.lean:
ROM_IMAGE of `powerOn`, FUEL of `runWith`. No free value is needed: 93_implementation_defined
treats nothing in the core as "any value".
-/
namespace Sys2Proof

/-- `MEM_KIND`: which of the two required memory implementations is attached (20_memory R32, R33). -/
inductive MemKind where
  /-- 65536 bytes of read-write storage (R32). -/
  | flat
  /-- The null sink: reads 0, drops writes (R33). -/
  | null
  deriving DecidableEq, Repr

/-- `LOAD_I_MODE`: whether the epilogue's shift acts on the value `load` has just put into `I`
(46_load_nop_halt R120). -/
inductive LoadIMode where
  | shifted
  | bypass
  deriving DecidableEq, Repr

/-- `BIT_INDEX_ORDER`: which operand bit is the high bit of the truth-table index of `bit`
(42_bit R95). -/
inductive BitIndexOrder where
  | baseMsb
  | argMsb
  deriving DecidableEq, Repr

/-- The parameters a step reads. They are fixed before reset and no step changes them, so a
statement about every state holds for every value of them (00_scope R5). -/
structure Config where
  memKind : MemKind
  loadIMode : LoadIMode
  bitIndexOrder : BitIndexOrder
  deriving DecidableEq, Repr

end Sys2Proof
end

