-- ==== Sys2Proof/Machine/Defaults.lean ====
section
/-!
DEFINITION. The parameters' default values (00_scope R5, 92_eei_decisions "Parameters left open").
They stand in a file of their own so that State.reset names them and nothing else depends on them.
-/
namespace Sys2Proof.Machine

/-- The defaults of 00_scope R5: `flat`, `shifted`, `base_msb` (decisions D2, D3, D4). -/
def defaultConfig : Config where
  memKind := .flat
  loadIMode := .shifted
  bitIndexOrder := .baseMsb

end Sys2Proof.Machine
end

