-- ==== Sys2Proof/Machine/State.lean ====
section
/-!
DEFINITION. The state of the core (10_state R10, 20_memory R30), why a step can stop (it cannot),
and the state after reset (10_state R22, 70_reset R155).
-/
namespace Sys2Proof.Machine

/-- The attached memory's contents: pairs of a global address and a byte, addresses strictly
rising, no pair holding the byte an unlisted address reads as (`Memory.wf`, Ops.lean). -/
abbrev Memory := List Host.Cell

/-- What the core holds. The first eight fields are the machine's (10_state R10, 20_memory R30). -/
structure State where
  /-- The condition flag (10_state R15). -/
  condition : Bool
  /-- The immediate accumulator, all eight bits architectural (10_state R16). -/
  I : Byte
  /-- The accumulator, selector 0 (10_state R12). -/
  A : Byte
  /-- The instruction pointer, selector 1 (10_state R14). -/
  IP : Byte
  /-- The pointer register, selector 2 (10_state R13). -/
  P : Byte
  /-- The bank of instruction fetch (10_state R17). -/
  bank_IP : Byte
  /-- The bank of the data cell `[P]` (10_state R17). -/
  bank_P : Byte
  /-- The contents of the attached memory (20_memory R30, R32). -/
  mem : Memory
  /-- The parameters of 00_scope R5 that a step reads; no step changes them (log 2). -/
  cfg : Config
  /-- DESIGN CHOICE (log 1), safe: the OUTPUT `halted` of the last step (40_step R78). It is no
  register of the core (10_state R21): every step writes it, none reads it. -/
  halted : Bool
  deriving DecidableEq, Repr

/-- Why a step could stop with a fault. NO constructor: the hardware has no exception, interrupt or
trap (60_exceptions R140, R141), and no access can fail (20_memory R31). Nobody raises it; safe. -/
inductive Fault where
  deriving DecidableEq, Repr

/-- Why something is refused. No step refuses: every byte is an instruction (30_encoding R57). -/
inductive Refusal where
  /-- An instruction without a meaning in this model, by its table mnemonic. Nobody raises it: every
  instruction has its meaning. Safe: it would stop where the hardware goes on. -/
  | notModelled (mnemonic : String)
  /-- A ROM image of more than 65536 bytes (20_memory R34, the document's `IoError`). The host's
  loader `powerOn` raises it, before any step; no step does. Safe: the spec says that no run
  starts. -/
  | romImageTooLong
  deriving DecidableEq, Repr

/-- The machine right after reset (10_state R22, 70_reset R155, R156; the spec's decision D1): all
seven registers zero, memory empty (ROM_IMAGE at its default), the parameters at their defaults.
The output `halted` is false because no step has been made (log 1). -/
def State.reset : State where
  condition := false
  I := 0x00#8
  A := 0x00#8
  IP := 0x00#8
  P := 0x00#8
  bank_IP := 0x00#8
  bank_P := 0x00#8
  mem := []
  cfg := defaultConfig
  halted := false

end Sys2Proof.Machine
end

