-- ==== Sys2Proof/Machine/Ops.lean ====
section
/-!
DEFINITION. The named operations over memory and registers, and the parts of a step that every
instruction shares: predicate, commit, epilogue, output (20_memory R30 to R33, 40_step R72 to R78).
There is no exception entry or return among them: the hardware has none (60_exceptions R140 to R144).
-/
namespace Sys2Proof.Machine

/-! ### Memory contents -/

/-- What an address that nothing has written reads as: "remainder zero-filled" (20_memory R34). -/
def Memory.unlisted : Byte := 0x00#8

/-- The byte at an address of the flat memory (20_memory R32). -/
def Memory.read : Memory → Nat → Byte
  | [], _ => Memory.unlisted
  | (k, v) :: m, a => if k = a then v else Memory.read m a

/-- The entry of one address: none where the byte is the one an unlisted address reads as. -/
def Memory.cons (a : Nat) (v : Byte) (m : Memory) : Memory :=
  if v = Memory.unlisted then m else (a, v) :: m

/-- The flat memory after a write: that byte and no other is replaced (20_memory R32). -/
def Memory.write : Memory → Nat → Byte → Memory
  | [], a, v => Memory.cons a v []
  | (k, w) :: m, a, v =>
    if a < k then Memory.cons a v ((k, w) :: m)
    else if a = k then Memory.cons a v m
    else (k, w) :: Memory.write m a v

/-- The canonical form from an address upward: addresses strictly rising, inside the 65536 of
20_memory R30, and no entry that an unlisted address would read as. -/
def Memory.wfFrom (lo : Nat) : Memory → Bool
  | [] => true
  | (k, v) :: m =>
    decide (lo ≤ k) && decide (k < 65536) && v != Memory.unlisted && Memory.wfFrom (k + 1) m

/-- The canonical form of a memory. -/
def Memory.wf (m : Memory) : Bool := Memory.wfFrom 0 m

/-! ### Register updates -/

def State.setCondition (b : Bool) (s : State) : State := { s with condition := b }
def State.setI (v : Byte) (s : State) : State := { s with I := v }
def State.setA (v : Byte) (s : State) : State := { s with A := v }
def State.setIP (v : Byte) (s : State) : State := { s with IP := v }
def State.setP (v : Byte) (s : State) : State := { s with P := v }
def State.setBankIP (v : Byte) (s : State) : State := { s with bank_IP := v }
def State.setBankP (v : Byte) (s : State) : State := { s with bank_P := v }
def State.setMem (m : Memory) (s : State) : State := { s with mem := m }
def State.setHalted (b : Bool) (s : State) : State := { s with halted := b }

/-! ### The memory capability -/

/-- The global address `bank:addr`, bank in the high byte (20_memory R30, R37). -/
def globalAddr (bank addr : Byte) : GlobalAddr := bank ++ addr

/-- `MemRead(bank:addr, 1)`: never fails; the null memory reads 0 (20_memory R31 to R33). -/
def State.memRead (s : State) (bank addr : Byte) : Byte :=
  match s.cfg.memKind with
  | .flat => Memory.read s.mem (globalAddr bank addr).toNat
  | .null => 0x00#8

/-- `MemWrite(bank:addr, 1, v)`: never fails; the null memory drops it (20_memory R31 to R33). -/
def State.memWrite (s : State) (bank addr v : Byte) : State :=
  match s.cfg.memKind with
  | .flat => s.setMem (Memory.write s.mem (globalAddr bank addr).toNat v)
  | .null => s

/-! ### The parts of a step -/

/-- The predicate (40_step R72): the instruction is executed iff its bit 7 equals `condition`. -/
def executes (g : Guard) (s : State) : Bool := g.predicate == s.condition

/-- The commit of an executed instruction's computed condition (40_step R74). -/
def commit (g : Guard) (newcond : Bool) (s : State) : State :=
  if g.commit then s.setCondition newcond else s

/-- The epilogue's advance of `IP`, within the bank (40_step R76, 10_state R14). -/
def advanceIP (s : State) : State := s.setIP (s.IP + 1)

/-- The epilogue's shift of `I`, four bits to the left with a nibble entering (40_step R77). -/
def shiftI (nib : Nibble) (s : State) : State := s.setI ((s.I <<< 4) ||| nib.setWidth 8)

/-- The universal epilogue of a step that has not written `IP`, with the step's output 0
(40_step R76 to R78). -/
def epilogue (nib : Nibble) (s : State) : State :=
  (shiftI nib (advanceIP s)).setHalted false

/-- The epilogue of a step that wrote through selector `r`: a write to `IP` overrides the advance,
whichever instruction made it (40_step R76; the spec's decision D5, log 7). -/
def epilogueAfterWrite (r : Sel) (s : State) : State :=
  if r = .ip then (shiftI 0#4 s).setHalted false else epilogue 0#4 s

/-- The frame of every step (40_step R72, R75): the executed instruction's new state, or, where the
predicate does not match, the epilogue alone. The nibble enters `I` either way (40_step R77; the
spec's decision D8, log 10). -/
def predicated (g : Guard) (nib : Nibble) (executed : State → State) (s : State) :
    Host.Outcome State Fault Refusal :=
  .next (if executes g s then executed s else epilogue nib s)

end Sys2Proof.Machine
end

