-- ==== Sys2Proof/Machine/BankSet.lean ====
section
/-!
DEFINITION. The bank sets (spec/44_bankset.md).
-/
namespace Sys2Proof.Machine

/-- What an executed `bit [P] [P]` does: `bank_P <- I`, computed condition 0 (44_bankset R105). -/
def setBankPFromI (g : Guard) (s : State) : State :=
  epilogue 0#4 (commit g false (s.setBankP s.I))

/-- What an executed `onto [P] [P]` does: `bank_IP <- I`, computed condition 0; `IP` advances
(44_bankset R106). -/
def setBankIPFromI (g : Guard) (s : State) : State :=
  epilogue 0#4 (commit g false (s.setBankIP s.I))

/-- `setbp` (44_bankset R105, R107). -/
def execSetbp (g : Guard) (s : State) : Host.Outcome State Fault Refusal :=
  predicated g 0#4 (setBankPFromI g) s

/-- `setbip` (44_bankset R106, R107). -/
def execSetbip (g : Guard) (s : State) : Host.Outcome State Fault Refusal :=
  predicated g 0#4 (setBankIPFromI g) s

end Sys2Proof.Machine
end

