-- ==== Sys2Proof/Machine/Alu.lean ====
section
/-!
DEFINITION. The results of the five ALU operations (40_step R83): `onto`, `inc`, `dec` compute
over the naturals and narrow to 8 bits at the end, `bit` and `mix` are bitwise.
-/
namespace Sys2Proof.Machine

/-- The byte whose bit `k` is `f k`. -/
def byteOfBits (f : Nat → Bool) : Byte :=
  BitVec.ofBool (f 7) ++ BitVec.ofBool (f 6) ++ BitVec.ofBool (f 5) ++ BitVec.ofBool (f 4) ++
    BitVec.ofBool (f 3) ++ BitVec.ofBool (f 2) ++ BitVec.ofBool (f 1) ++ BitVec.ofBool (f 0)

/-- `onto`'s first sum, of base and arg (43_onto R100; the order is the spec's decision D16 and is
not observable). -/
def ontoFirst (b a : Byte) : Nat := b.toNat + a.toNat

/-- `onto`'s second sum, of the wrapped first and `I` (43_onto R100). -/
def ontoSecond (i b a : Byte) : Nat := ontoFirst b a % 256 + i.toNat

/-- The result of `onto` (43_onto R100). -/
def ontoResult (i b a : Byte) : Byte := BitVec.ofNat 8 (ontoSecond i b a)

/-- The exact sum of `inc` (45_incdec_mix R110). -/
def incSum (i a : Byte) : Nat := a.toNat + i.toNat

/-- The result of `inc` (45_incdec_mix R110). -/
def incResult (i a : Byte) : Byte := BitVec.ofNat 8 (incSum i a)

/-- The result of `dec` (45_incdec_mix R111). -/
def decResult (i a : Byte) : Byte := BitVec.ofNat 8 (a.toNat + 256 - i.toNat)

/-- The truth-table index of one bit position, `BITIDX` (42_bit R95, 40_step R79). -/
def bitIndex (order : BitIndexOrder) (b a : Bool) : Nat :=
  match order with
  | .baseMsb => 2 * b.toNat + a.toNat
  | .argMsb => 2 * a.toNat + b.toNat

/-- The result of `bit`: in each position the bit of `I[3:0]` at the index formed by the base bit
and the arg bit (42_bit R95). -/
def bitResult (order : BitIndexOrder) (i b a : Byte) : Byte :=
  byteOfBits fun k => i.getLsbD (bitIndex order (b.getLsbD k) (a.getLsbD k))

/-- Group `g` of a byte, bits `2g+1` to `2g` (45_incdec_mix R112). -/
def group (x : Byte) (g : Nat) : Pair := x.extractLsb' (2 * g) 2

/-- The result of `mix`: output group `g` is the operand's group whose number is group `g` of `I`
(45_incdec_mix R112; the index bits' order is the spec's decision D13, log 12). -/
def mixResult (i a : Byte) : Byte :=
  group a (group i 3).toNat ++ group a (group i 2).toNat ++ group a (group i 1).toNat ++
    group a (group i 0).toNat

end Sys2Proof.Machine
end

