-- ==== Sys2Proof/Machine/Flags.lean ====
section
/-!
DEFINITION. The computed conditions that depend on data (10_state R15). Those of `immd`, the bank
sets, the no-ops and `halt` are the constant 0; `load`'s is the complement of `condition`.
-/
namespace Sys2Proof.Machine

/-- `onto`: the or of the two sequential carries (43_onto R100). -/
def ontoCarry (i b a : Byte) : Bool :=
  decide (256 ≤ ontoFirst b a) || decide (256 ≤ ontoSecond i b a)

/-- `inc`: the carry out of the 8-bit addition (45_incdec_mix R110). -/
def incCarry (i a : Byte) : Bool := decide (256 ≤ incSum i a)

/-- `dec`: the borrow, 1 iff the operand is less than `I` (45_incdec_mix R111). -/
def decBorrow (i a : Byte) : Bool := decide (a.toNat < i.toNat)

/-- `mix`: 1 iff the result is zero (45_incdec_mix R112). -/
def mixZero (r : Byte) : Bool := r == 0x00#8

/-- `bit`: 1 iff the result's bit number `I[6:4]` equals `I[7]` (42_bit R95; the index bits' order
is the spec's decision D13, log 12). -/
def bitTest (i r : Byte) : Bool := r.getLsbD (i.extractLsb' 4 3).toNat == i.getLsbD 7

end Sys2Proof.Machine
end

