-- ==== Sys2Proof/Machine/Operands.lean ====
section
/-!
DEFINITION. The operand forms: the 4-way selector, read and written (10_state R18, R19), and the
retirement of an instruction that writes its result through a selector.
-/
namespace Sys2Proof.Machine

/-- Selector read (10_state R18). `IP` reads as the address of the executing instruction (10_state
R14; the spec's decision D9, log 11). -/
def readSel (s : State) : Sel → Byte
  | .a => s.A
  | .ip => s.IP
  | .p => s.P
  | .mem => s.memRead s.bank_P s.P

/-- Selector write (10_state R19). -/
def writeSel (r : Sel) (v : Byte) (s : State) : State :=
  match r with
  | .a => s.setA v
  | .ip => s.setIP v
  | .p => s.setP v
  | .mem => s.memWrite s.bank_P s.P v

/-- An executed instruction with result `v` for selector `r` and computed condition `newcond`:
the write, the commit, the epilogue (40_step R73, R74, R76, R77). -/
def retire (g : Guard) (r : Sel) (v : Byte) (newcond : Bool) (s : State) : State :=
  epilogueAfterWrite r (commit g newcond (writeSel r v s))

end Sys2Proof.Machine
end

