-- ==== Sys2Proof/Machine/Bit.lean ====
section
/-!
DEFINITION. The meaning of `bit` (spec/42_bit.md).
-/
namespace Sys2Proof.Machine

/-- What an executed `bit B R` does, `B` and `R` not both `[P]` (42_bit R95). -/
def bitExecuted (g : Guard) (base arg : Sel) (s : State) : State :=
  let r := bitResult s.cfg.bitIndexOrder s.I (readSel s base) (readSel s arg)
  retire g base r (bitTest s.I r) s

/-- `bit B R` (42_bit R95, R98). The spelling `bit [P] [P]` is the bank set (44_bankset R105). -/
def execBit (g : Guard) (base arg : Sel) (s : State) : Host.Outcome State Fault Refusal :=
  predicated g 0#4
    (fun s => if Sel.bothMem base arg then setBankPFromI g s else bitExecuted g base arg s) s

end Sys2Proof.Machine
end

