-- ==== Sys2Proof/Machine/Immd.lean ====
section
/-!
DEFINITION. The meaning of `immd` (spec/41_immd.md).
-/
namespace Sys2Proof.Machine

/-- `immd N` (41_immd R90, R91): no effect but the nibble's entry into `I`, which the epilogue makes
whether the instruction is executed or skipped; computed condition 0. -/
def execImmd (g : Guard) (n : Nibble) (s : State) : Host.Outcome State Fault Refusal :=
  predicated g n (fun s => epilogue n (commit g false s)) s

end Sys2Proof.Machine
end

