-- ==== Sys2Proof/Machine/IncDecMix.lean ====
section
/-!
DEFINITION. The single-register instructions (spec/45_incdec_mix.md): the operand that bits 1-0
select is source and destination (the spec's decision D6 for `mix`, log 8).
-/
namespace Sys2Proof.Machine

/-- `inc R` (45_incdec_mix R110, R114). -/
def execInc (g : Guard) (r : Sel) (s : State) : Host.Outcome State Fault Refusal :=
  predicated g 0#4
    (fun s => retire g r (incResult s.I (readSel s r)) (incCarry s.I (readSel s r)) s) s

/-- `dec R` (45_incdec_mix R111, R114). -/
def execDec (g : Guard) (r : Sel) (s : State) : Host.Outcome State Fault Refusal :=
  predicated g 0#4
    (fun s => retire g r (decResult s.I (readSel s r)) (decBorrow s.I (readSel s r)) s) s

/-- `mix R` (45_incdec_mix R112, R115). -/
def execMix (g : Guard) (r : Sel) (s : State) : Host.Outcome State Fault Refusal :=
  predicated g 0#4
    (fun s =>
      let v := mixResult s.I (readSel s r)
      retire g r v (mixZero v) s) s

end Sys2Proof.Machine
end

