-- ==== Sys2Proof/Machine/LoadNopHalt.lean ====
section
/-!
DEFINITION. The instructions without an operand (spec/46_load_nop_halt.md).
-/
namespace Sys2Proof.Machine

/-- What an executed `load` does (46_load_nop_halt R120). Under `shifted` the epilogue shifts the
value that `load` has put into `I`; under `bypass` the value stands (LOAD_I_MODE, the spec's
decision D3, log 3). -/
def loadExecuted (g : Guard) (s : State) : State :=
  let written := commit g (!s.condition) (s.setI s.A)
  match s.cfg.loadIMode with
  | .shifted => epilogue 0#4 written
  | .bypass => (advanceIP written).setHalted false

/-- `load` (46_load_nop_halt R120, R125); a skipped one only shifts `I` (R124). -/
def execLoad (g : Guard) (s : State) : Host.Outcome State Fault Refusal :=
  predicated g 0#4 (loadExecuted g) s

/-- `nop` (46_load_nop_halt R121). -/
def execNop (g : Guard) (s : State) : Host.Outcome State Fault Refusal :=
  predicated g 0#4 (fun s => epilogue 0#4 (commit g false s)) s

/-- `nop2` (46_load_nop_halt R122). -/
def execNop2 (g : Guard) (s : State) : Host.Outcome State Fault Refusal :=
  predicated g 0#4 (fun s => epilogue 0#4 (commit g false s)) s

/-- `halt` (46_load_nop_halt R123): the step's output is 1; the epilogue runs as in every step. -/
def execHalt (g : Guard) (s : State) : Host.Outcome State Fault Refusal :=
  predicated g 0#4 (fun s => (epilogue 0#4 (commit g false s)).setHalted true) s

end Sys2Proof.Machine
end

