-- ==== Sys2Proof/Machine/Onto.lean ====
section
/-!
DEFINITION. The meaning of `onto` (spec/43_onto.md).
-/
namespace Sys2Proof.Machine

/-- What an executed `onto B R` does, `B` and `R` not both `[P]` (43_onto R100). -/
def ontoExecuted (g : Guard) (base arg : Sel) (s : State) : State :=
  let b := readSel s base
  let a := readSel s arg
  retire g base (ontoResult s.I b a) (ontoCarry s.I b a) s

/-- `onto B R` (43_onto R100, R102). The spelling `onto [P] [P]` is the bank set (44_bankset
R106). -/
def execOnto (g : Guard) (base arg : Sel) (s : State) : Host.Outcome State Fault Refusal :=
  predicated g 0#4
    (fun s => if Sel.bothMem base arg then setBankIPFromI g s else ontoExecuted g base arg s) s

end Sys2Proof.Machine
end

