-- ==== Sys2Proof/Machine/Dispatch.lean ====
section
/-!
DEFINITION. Which meaning each instruction has: one arm per constructor of Instr.
-/
namespace Sys2Proof.Machine

def exec (i : Instr) (s : State) : Host.Outcome State Fault Refusal :=
  match i with
  | .immd g n => Sys2Proof.Machine.execImmd g n s
  | .load g => Sys2Proof.Machine.execLoad g s
  | .nop g => Sys2Proof.Machine.execNop g s
  | .nop2 g => Sys2Proof.Machine.execNop2 g s
  | .halt g => Sys2Proof.Machine.execHalt g s
  | .mix g r => Sys2Proof.Machine.execMix g r s
  | .inc g r => Sys2Proof.Machine.execInc g r s
  | .dec g r => Sys2Proof.Machine.execDec g r s
  | .bit g base arg => Sys2Proof.Machine.execBit g base arg s
  | .setbp g => Sys2Proof.Machine.execSetbp g s
  | .onto g base arg => Sys2Proof.Machine.execOnto g base arg s
  | .setbip g => Sys2Proof.Machine.execSetbip g s

end Sys2Proof.Machine
end

