-- ==== Sys2Proof/Machine/Fetch.lean ====
section
/-!
DEFINITION. The instruction fetch (40_step R70).
-/
namespace Sys2Proof.Machine

/-- The instruction byte at `bank_IP:IP` (40_step R70); the fetch cannot fail (20_memory R31). -/
def fetch (s : State) : Byte := s.memRead s.bank_IP s.IP

end Sys2Proof.Machine
end

