-- ==== Sys2Proof/Machine/Step.lean ====
section
/-!
DEFINITION. One step of the core: fetch, decode, run (40_step R70, R71, R79). The step's output is
the field `halted` of the next state (log 1).
-/
namespace Sys2Proof.Machine

def step (s : State) : Host.Outcome State Fault Refusal :=
  exec (decode (fetch s)) s

/-- `s` with an instruction of the table stored where the next fetch reads, in a flat memory (with
the null memory attached every fetch reads 0, so a program needs the flat one; log 18). -/
def State.withFetchWord (s : State) (nbits w : Nat) : State :=
  { s with
    cfg := { s.cfg with memKind := .flat }
    mem := Memory.write s.mem (globalAddr s.bank_IP s.IP).toNat (BitVec.ofNat 8 (w % 2 ^ nbits)) }

end Sys2Proof.Machine
end

