-- ==== Sys2Proof/Machine/Assembly.lean ====
section
/-!
DEFINITION. The instruction line of the assembler at the level of tokens (30_encoding R58 to R60;
the spec's decision D12, log 14): the part of the assembler that 00_scope R3 (g) keeps. Splitting
text into tokens, macros, labels and data statements are out of scope (00_scope R4).
-/
namespace Sys2Proof.Machine

/-- A token of an instruction line (30_encoding R58). -/
inductive Token where
  | plus
  | minus
  | bang
  | word (m : Mnemonic)
  | reg (r : Sel)
  | num (n : Nat)
  deriving DecidableEq, Repr

/-- The spelling of a mnemonic (30_encoding R60). -/
def mnemonicText : Mnemonic → String
  | .immd => "immd"
  | .load => "load"
  | .nop => "nop"
  | .nop2 => "nop2"
  | .halt => "halt"
  | .mix => "mix"
  | .inc => "inc"
  | .dec => "dec"
  | .bit => "bit"
  | .setbp => "setbp"
  | .onto => "onto"
  | .setbip => "setbip"

/-- The spelling of a register token (30_encoding R60). -/
def regText : Sel → String
  | .a => "A"
  | .ip => "IP"
  | .p => "P"
  | .mem => "[P]"

/-- The spelling of a token. The base in which a number is written is the tokenizer's affair; this
one writes it in decimal. -/
def tokenText : Token → String
  | .plus => "+"
  | .minus => "-"
  | .bang => "!"
  | .word m => mnemonicText m
  | .reg r => regText r
  | .num n => toString n

/-- The sign prefix: `+` is predicate 1; `-` or no prefix is predicate 0 (30_encoding R59). -/
def takeSign : List Token → Bool × List Token
  | .plus :: ts => (true, ts)
  | .minus :: ts => (false, ts)
  | ts => (false, ts)

/-- The commit prefix `!` after the optional sign (30_encoding R59). -/
def takeBang : List Token → Bool × List Token
  | .bang :: ts => (true, ts)
  | ts => (false, ts)

/-- The mnemonic and its operands (30_encoding R60); nothing outside that table is accepted
(93 U5). In a two-operand form the first operand is the base. -/
def parseBody (g : Guard) : List Token → Option Instr
  | [.word .immd, .num n] => if n < 16 then some (.immd g (BitVec.ofNat 4 n)) else none
  | [.word .load] => some (.load g)
  | [.word .nop] => some (.nop g)
  | [.word .nop2] => some (.nop2 g)
  | [.word .halt] => some (.halt g)
  | [.word .mix, .reg r] => some (.mix g r)
  | [.word .inc, .reg r] => some (.inc g r)
  | [.word .dec, .reg r] => some (.dec g r)
  | [.word .bit, .reg base, .reg arg] => some (.bit g base arg)
  | [.word .setbp] => some (.setbp g)
  | [.word .onto, .reg base, .reg arg] => some (.onto g base arg)
  | [.word .setbip] => some (.setbip g)
  | _ => none

/-- An instruction line read as an instruction. -/
def parseLine (ts : List Token) : Option Instr :=
  let signed := takeSign ts
  let banged := takeBang signed.2
  parseBody ⟨signed.1, banged.1⟩ banged.2

/-- An instruction line assembles to exactly one byte (30_encoding R58, R60). -/
def assemble (ts : List Token) : Option Byte := (parseLine ts).map encode

/-- The mnemonic and operands of an instruction (30_encoding R60). -/
def renderBody : Instr → List Token
  | .immd _ n => [.word .immd, .num n.toNat]
  | .load _ => [.word .load]
  | .nop _ => [.word .nop]
  | .nop2 _ => [.word .nop2]
  | .halt _ => [.word .halt]
  | .mix _ r => [.word .mix, .reg r]
  | .inc _ r => [.word .inc, .reg r]
  | .dec _ r => [.word .dec, .reg r]
  | .bit _ base arg => [.word .bit, .reg base, .reg arg]
  | .setbp _ => [.word .setbp]
  | .onto _ base arg => [.word .onto, .reg base, .reg arg]
  | .setbip _ => [.word .setbip]

/-- The line of an instruction, its sign always written (30_encoding R59, R60). -/
def renderLine (i : Instr) : List Token :=
  (if i.guard.predicate then Token.plus else Token.minus) ::
    ((if i.guard.commit then [Token.bang] else []) ++ renderBody i)

end Sys2Proof.Machine
end

