-- ==== Sys2Proof/Machine/Accesses.lean ====
section
/-!
DEFINITION. The accesses a step makes on the memory interface, in order (20_memory R35, R45). Reads
have no side effect (R38), so this list is a view of the step beside it, not a part of it; the
reads that only `step_hw` makes are left out (R46, 47_dataflow R135).
-/
namespace Sys2Proof.Machine

/-- One access, always of one byte (20_memory R36). -/
inductive Access where
  /-- The instruction fetch (R35 a). -/
  | fetch (a : GlobalAddr)
  /-- The operand read of `[P]` (R35 b). -/
  | read (a : GlobalAddr)
  /-- The result write of `[P]` (R35 c). -/
  | write (a : GlobalAddr) (v : Byte)
  deriving DecidableEq, Repr

/-- The global address of the data cell `[P]` (10_state R18). -/
def dataAddr (s : State) : GlobalAddr := globalAddr s.bank_P s.P

/-- The selector an executed instruction writes its result through, and the result: `bit` and `onto`
write their base, `inc`, `dec` and `mix` their operand, the others nothing (10_state R20). -/
def written (i : Instr) (s : State) : Option (Sel × Byte) :=
  match i with
  | .immd _ _ => none
  | .load _ => none
  | .nop _ => none
  | .nop2 _ => none
  | .halt _ => none
  | .mix _ r => some (r, mixResult s.I (readSel s r))
  | .inc _ r => some (r, incResult s.I (readSel s r))
  | .dec _ r => some (r, decResult s.I (readSel s r))
  | .bit _ base arg =>
    if Sel.bothMem base arg then none
    else some (base, bitResult s.cfg.bitIndexOrder s.I (readSel s base) (readSel s arg))
  | .setbp _ => none
  | .onto _ base arg =>
    if Sel.bothMem base arg then none
    else some (base, ontoResult s.I (readSel s base) (readSel s arg))
  | .setbip _ => none

/-- An executed instruction reads `[P]` as an operand (20_memory R35 b); at most one operand is `[P]`
(10_state R18). -/
def readsCell : Instr → Bool
  | .immd _ _ => false
  | .load _ => false
  | .nop _ => false
  | .nop2 _ => false
  | .halt _ => false
  | .mix _ r => r == .mem
  | .inc _ r => r == .mem
  | .dec _ r => r == .mem
  | .bit _ base arg => !Sel.bothMem base arg && (base == .mem || arg == .mem)
  | .setbp _ => false
  | .onto _ base arg => !Sel.bothMem base arg && (base == .mem || arg == .mem)
  | .setbip _ => false

/-- A write on the memory interface: its address and its value (20_memory R31). -/
structure Store where
  addr : GlobalAddr
  value : Byte
  deriving DecidableEq, Repr

/-- The memory write an executed instruction makes, or none (20_memory R35 c): its result, where it
writes that through selector 3. -/
def storeOf (i : Instr) (s : State) : Option Store :=
  match written i s with
  | some (.mem, v) => some { addr := dataAddr s, value := v }
  | _ => none

/-- The data accesses of an executed instruction, the read before the write (20_memory R35, R45). -/
def dataAccesses (i : Instr) (s : State) : List Access :=
  (if readsCell i then [.read (dataAddr s)] else []) ++
    ((storeOf i s).map fun w => Access.write w.addr w.value).toList

/-- The memory write of the step from a state, or none: a skipped instruction writes nothing
(40_step R75). It is the write the core puts on the interface, whether the byte was another before
and whether or not the attached memory keeps it. -/
def stepStore (s : State) : Option Store :=
  if executes (decode (fetch s)).guard s then storeOf (decode (fetch s)) s else none

/-- The accesses of the step from a state: the fetch, then the data accesses of an executed
instruction; a skipped one makes none (20_memory R35, R45). -/
def accesses (s : State) : List Access :=
  .fetch (globalAddr s.bank_IP s.IP) ::
    (if executes (decode (fetch s)).guard s then dataAccesses (decode (fetch s)) s else [])

/-- What an access leaves in a memory. -/
def Access.apply (s : State) : Access → State
  | .fetch _ => s
  | .read _ => s
  | .write a v => s.memWrite (a.extractLsb' 8 8) (a.extractLsb' 0 8) v

end Sys2Proof.Machine
end

