-- ==== Sys2Proof/Machine/HostControl.lean ====
section
/-!
DEFINITION. What the host does to the core (70_reset R160): load the memory and reset, ask for
steps, observe the registers, stop at the first halting step or when FUEL is used up (40_step R82).
Observing the memory is `State.memRead`.
-/
namespace Sys2Proof.Machine

/-- The entries of an image whose first byte lies at address `k` (20_memory R34, R37). -/
def imageCells (k : Nat) : List Byte → Memory
  | [] => []
  | b :: bs => Memory.cons k b (imageCells (k + 1) bs)

/-- The memory before the first step (20_memory R34): the image from address 0, zero after its
end; the null memory ignores the image. -/
def loadedMemory (kind : MemKind) (rom : List Byte) : Memory :=
  match kind with
  | .flat => imageCells 0 rom
  | .null => []

/-- Loading and reset (70_reset R155, R156, R160): with an image of at most 65536 bytes, the reset
registers over the loaded memory; a longer one is refused and no run starts (93 U13). -/
def powerOn (cfg : Config) (rom : List Byte) : Host.Outcome State Fault Refusal :=
  if rom.length ≤ 65536 then
    .next { State.reset with cfg := cfg, mem := loadedMemory cfg.memKind rom }
  else .refused .romImageTooLong

/-- The seven register values that the host observes between steps (10_state R10, 70_reset R160). -/
structure Registers where
  condition : Bool
  I : Byte
  A : Byte
  IP : Byte
  P : Byte
  bank_IP : Byte
  bank_P : Byte
  deriving DecidableEq, Repr

/-- Observing the registers, which does not disturb the core (70_reset R160). -/
def State.registers (s : State) : Registers :=
  { condition := s.condition, I := s.I, A := s.A, IP := s.IP, P := s.P,
    bank_IP := s.bank_IP, bank_P := s.bank_P }

/-- At most `fuel` steps, ending with the first that returns `halted` (40_step R82; the spec's
decision D10, log 13). -/
def runFor : Nat → State → Host.Outcome State Fault Refusal
  | 0, s => .next s
  | fuel + 1, s =>
    match step s with
    | .next t => if t.halted then .next t else runFor fuel t
    | .fault r => .fault r
    | .refused r => .refused r

/-- A run from `s` ends in `t`: some step, the first to do so, returns `halted`, and `t` is the
state after its epilogue (40_step R82). -/
inductive RunEnds : State → State → Prop where
  | last {s t : State} (h : step s = .next t) (halts : t.halted = true) : RunEnds s t
  | more {s t u : State} (h : step s = .next t) (goesOn : t.halted = false)
      (rest : RunEnds t u) : RunEnds s u

/-- What the host observes under FUEL (70_reset R160): with a step count, the state after that many
steps or at the end of the run; with none, the end of the run. -/
def runWith (fuel : Option Nat) (s t : State) : Prop :=
  match fuel with
  | some n => runFor n s = .next t
  | none => RunEnds s t

end Sys2Proof.Machine
end

