-- ==== Sys2Proof/Machine/Hw.lean ====
section
/-!
DEFINITION. The branch-free formulation `step_hw` (47_dataflow R130 to R137): next-state equations
over the wires of R131, selected by the enables of R132 and R133. It shares with the branching form
only the ALU functions and the memory interface, not the decoder nor any part of a step.
-/
namespace Sys2Proof.Machine

/-- The decoded enables of R131 and the operands, computed for every byte. -/
structure HwWires where
  predicate : Bool
  commit : Bool
  major : Pair
  lo : Nibble
  bsel : Pair
  asel : Pair
  base : Byte
  arg : Byte
  deriving DecidableEq, Repr

/-- `sel(s)` of R131: a multiplexer over the two selector bits; the memory byte is read
unconditionally (47_dataflow R135). -/
def hwSel (s : State) (x : Pair) : Byte :=
  if x = 0b00#2 then s.A
  else if x = 0b01#2 then s.IP
  else if x = 0b10#2 then s.P
  else s.memRead s.bank_P s.P

/-- The fields of the fetched byte and the two operands (R131). -/
def hwWires (s : State) : HwWires where
  predicate := (fetch s).getLsbD 7
  commit := (fetch s).getLsbD 6
  major := (fetch s).extractLsb' 4 2
  lo := (fetch s).extractLsb' 0 4
  bsel := (fetch s).extractLsb' 2 2
  asel := (fetch s).extractLsb' 0 2
  base := hwSel s ((fetch s).extractLsb' 2 2)
  arg := hwSel s ((fetch s).extractLsb' 0 2)

def hwExec (w : HwWires) (s : State) : Bool := w.predicate == s.condition
def hwIsImmd (w : HwWires) : Bool := w.major == 0b00#2
def hwIsSingle (w : HwWires) : Bool := w.major == 0b01#2
def hwIsTwo (w : HwWires) : Bool := w.major.getLsbD 1
def hwBankset (w : HwWires) : Bool := hwIsTwo w && w.lo == 0b1111#4
def hwIsOnto (w : HwWires) : Bool := w.major == 0b11#2 && !hwBankset w
def hwIsBit (w : HwWires) : Bool := w.major == 0b10#2 && !hwBankset w
def hwIsInc (w : HwWires) : Bool := hwIsSingle w && w.bsel == 0b10#2
def hwIsDec (w : HwWires) : Bool := hwIsSingle w && w.bsel == 0b11#2
def hwIsMix (w : HwWires) : Bool := hwIsSingle w && w.bsel == 0b01#2
def hwIsZero (w : HwWires) : Bool := hwIsSingle w && w.bsel == 0b00#2
def hwIsLoad (w : HwWires) : Bool := hwIsZero w && w.asel == 0b00#2
def hwIsHalt (w : HwWires) : Bool := hwIsZero w && w.asel == 0b11#2

/-- The result multiplexer of R132. Where no ALU instruction is decoded its output is a don't-care
that no enable selects; the last input of the multiplexer then stands (log 19). -/
def hwResult (w : HwWires) (s : State) : Byte :=
  if hwIsOnto w then ontoResult s.I w.base w.arg
  else if hwIsBit w then bitResult s.cfg.bitIndexOrder s.I w.base w.arg
  else if hwIsInc w then incResult s.I w.arg
  else if hwIsDec w then decResult s.I w.arg
  else mixResult s.I w.arg

/-- The computed condition of R132. -/
def hwNewcond (w : HwWires) (s : State) : Bool :=
  if hwIsOnto w then ontoCarry s.I w.base w.arg
  else if hwIsBit w then bitTest s.I (bitResult s.cfg.bitIndexOrder s.I w.base w.arg)
  else if hwIsInc w then incCarry s.I w.arg
  else if hwIsDec w then decBorrow s.I w.arg
  else if hwIsMix w then mixZero (mixResult s.I w.arg)
  else if hwIsLoad w then !s.condition
  else false

/-- The write-target selector of R132. -/
def hwWsel (w : HwWires) : Pair := if hwIsTwo w then w.bsel else w.asel

/-- The write enable of R132. -/
def hwWen (w : HwWires) (s : State) : Bool :=
  hwExec w s && (hwIsOnto w || hwIsBit w || hwIsInc w || hwIsDec w || hwIsMix w)

/-- The memory write of R132: none, or the value for the cell at the start-of-step `bank_P:P`. -/
def hwMemWrite (w : HwWires) (s : State) : Option Byte :=
  if hwWen w s && hwWsel w == 0b11#2 then some (hwResult w s) else none

/-- The nibble of R133. -/
def hwNib (w : HwWires) : Nibble := if hwIsImmd w then w.lo else 0#4

/-- `I'` of R133. -/
def hwNextI (w : HwWires) (s : State) : Byte :=
  if hwExec w s && hwIsLoad w then
    (if s.cfg.loadIMode = .shifted then s.A <<< 4 else s.A)
  else (s.I <<< 4) ||| (hwNib w).setWidth 8

/-- The memory after the step: the write of R132 put on the memory interface. -/
def hwNextMem (w : HwWires) (s : State) : Memory :=
  match hwMemWrite w s with
  | none => s.mem
  | some v => (s.memWrite s.bank_P s.P v).mem

/-- `step_hw`: every primed register of R132 and R133 from the start-of-step state. -/
def stepHw (s : State) : State :=
  let w := hwWires s
  { condition := if hwExec w s && w.commit then hwNewcond w s else s.condition
    I := hwNextI w s
    A := if hwWen w s && hwWsel w == 0b00#2 then hwResult w s else s.A
    IP := if hwWen w s && hwWsel w == 0b01#2 then hwResult w s else s.IP + 1
    P := if hwWen w s && hwWsel w == 0b10#2 then hwResult w s else s.P
    bank_IP := if hwExec w s && hwBankset w && w.major == 0b11#2 then s.I else s.bank_IP
    bank_P := if hwExec w s && hwBankset w && w.major == 0b10#2 then s.I else s.bank_P
    mem := hwNextMem w s
    cfg := s.cfg
    halted := hwExec w s && hwIsHalt w }

end Sys2Proof.Machine
end

