-- ==== Sys2Proof/Machine/Equivalence.lean ====
section
/-!
DEFINITION. The equivalence law of the two formulations (47_dataflow R130) and what it quantifies
over (R136): the outputs of each form, what it is for them to agree from a state, and the law.
-/
namespace Sys2Proof.Machine

/-- The outputs of one step that the law compares: "(halted, new register file, memory writes)"
(47_dataflow R130, R137). -/
structure StepOutputs where
  halted : Bool
  registers : Registers
  store : Option Store
  deriving DecidableEq, Repr

/-- The outputs of the branching form (40_step R79); none where the step would answer no next
state. -/
def stepOutputs (s : State) : Option StepOutputs :=
  match step s with
  | .next t => some { halted := t.halted, registers := t.registers, store := stepStore s }
  | .fault _ => none
  | .refused _ => none

/-- The memory write of the branch-free form, address and value or none: the write port of R132, at
the start-of-step `bank_P:P`. -/
def stepHwStore (s : State) : Option Store :=
  (hwMemWrite (hwWires s) s).map fun v => { addr := globalAddr s.bank_P s.P, value := v }

/-- The outputs of the branch-free form (47_dataflow R132, R133). -/
def stepHwOutputs (s : State) : StepOutputs :=
  { halted := (stepHw s).halted, registers := (stepHw s).registers, store := stepHwStore s }

/-- The two forms agree from a state: in their outputs, the memory write's address and value among
them, and in the whole next state, so in every byte of memory (47_dataflow R130). -/
structure FormsAgree (s : State) : Prop where
  outputs : stepOutputs s = some (stepHwOutputs s)
  nextState : step s = .next (stepHw s)

/-- The equivalence law over the domain of 47_dataflow R136 and 90_conflicts C4: all register states
and all memories, hence every instruction byte, under every value of the parameters, with no premise
of reachability and no sample. It is stated to be proved (R136), not tested. -/
def EquivalenceLaw : Prop := ∀ s : State, FormsAgree s

end Sys2Proof.Machine
end

