-- ==== Sys2Proof/Safety.lean ====
section
/-!
DEFINITION. The words the statements use: the invariant of the model, what an executed instruction
computes for the condition, and what a step leaves after a result is written through a selector.
-/
namespace Sys2Proof.Machine

/-- The model's invariant: the memory is in canonical form (log 6). -/
abbrev State.wf (s : State) : Prop := Memory.wf s.mem = true

/-- A step that neither faults nor refuses: on this hardware, every one (40_step R80). -/
def Safe (s : State) : Prop := ∃ t, step s = .next t

/-- `{I[3:0], n}`, what the epilogue makes of `I` (40_step R77). -/
def nextI (s : State) (n : Nibble) : Byte := s.I.extractLsb' 0 4 ++ n

/-- The nibble that enters `I` (40_step R77): the immediate's of an `immd`, else 0. -/
def entering : Instr → Nibble
  | .immd _ n => n
  | .load _ => 0#4
  | .nop _ => 0#4
  | .nop2 _ => 0#4
  | .halt _ => 0#4
  | .mix _ _ => 0#4
  | .inc _ _ => 0#4
  | .dec _ _ => 0#4
  | .bit _ _ _ => 0#4
  | .setbp _ => 0#4
  | .onto _ _ _ => 0#4
  | .setbip _ => 0#4

/-- The instruction writes its result through selector 1 when it is executed (40_step R76). -/
def writesIP : Instr → Bool
  | .immd _ _ => false
  | .load _ => false
  | .nop _ => false
  | .nop2 _ => false
  | .halt _ => false
  | .mix _ r => r == .ip
  | .inc _ r => r == .ip
  | .dec _ r => r == .ip
  | .bit _ base _ => base == .ip
  | .setbp _ => false
  | .onto _ base _ => base == .ip
  | .setbip _ => false

/-- The instruction sets `bank_IP` when it is executed: `onto [P] [P]` under either name (44_bankset
R106; 30_encoding R60). -/
def setsBankIP : Instr → Bool
  | .immd _ _ => false
  | .load _ => false
  | .nop _ => false
  | .nop2 _ => false
  | .halt _ => false
  | .mix _ _ => false
  | .inc _ _ => false
  | .dec _ _ => false
  | .bit _ _ _ => false
  | .setbp _ => false
  | .onto _ base arg => Sel.bothMem base arg
  | .setbip _ => true

/-- The table of computed conditions (10_state R15). -/
def computedCondition (i : Instr) (s : State) : Bool :=
  match i with
  | .immd _ _ => false
  | .load _ => !s.condition
  | .nop _ => false
  | .nop2 _ => false
  | .halt _ => false
  | .mix _ r => mixZero (mixResult s.I (readSel s r))
  | .inc _ r => incCarry s.I (readSel s r)
  | .dec _ r => decBorrow s.I (readSel s r)
  | .bit _ base arg =>
    if Sel.bothMem base arg then false
    else bitTest s.I
      (bitResult s.cfg.bitIndexOrder s.I (readSel s base) (readSel s arg))
  | .setbp _ => false
  | .onto _ base arg =>
    if Sel.bothMem base arg then false
    else ontoCarry s.I (readSel s base) (readSel s arg)
  | .setbip _ => false

/-- The cell `bank:addr` is the one that a write through selector `r` stores to: the flat memory's
cell at the start-of-step `bank_P:P`, for selector 3 only (10_state R19, 20_memory R35). -/
def StoresTo (r : Sel) (s : State) (bank addr : Byte) : Prop :=
  r = .mem ∧ s.cfg.memKind = .flat ∧ bank = s.bank_P ∧ addr = s.P

/-- From `s` to `t` an executed instruction has written `v` through selector `r` with computed
condition `newcond`, and the epilogue has run: all that changes, and what each other piece of state
keeps (10_state R19, R20; 40_step R74, R76, R77). -/
structure Retired (g : Guard) (r : Sel) (v : Byte) (newcond : Bool) (s t : State) : Prop where
  acc : t.A = if r = .a then v else s.A
  ip : t.IP = if r = .ip then v else s.IP + 1
  ptr : t.P = if r = .p then v else s.P
  stored : ∀ bank addr, StoresTo r s bank addr → t.memRead bank addr = v
  kept : ∀ bank addr, ¬StoresTo r s bank addr → t.memRead bank addr = s.memRead bank addr
  flag : t.condition = if g.commit then newcond else s.condition
  imm : t.I = nextI s 0#4
  bankIP : t.bank_IP = s.bank_IP
  bankP : t.bank_P = s.bank_P
  params : t.cfg = s.cfg
  output : t.halted = false

end Sys2Proof.Machine
end

