-- ==== Sys2Proof/Certificates/Slice0/Obligations.lean ====
section
/-!
DEFINITION. The statements for the provers. Each docstring names the part of spec/ it formalises;
where it rests on a choice that the spec marks as its own (a decision D<n>) or on one of the model's,
the docstring names it and its log entry, and the statement's basis is 'derived'.
-/

open Sys2Proof Sys2Proof.Machine

/-! ### Reset, loading, memory -/

/-- Reset (10_state section 10; 70_reset section 1): all seven registers zero, every byte of memory
zero, the first fetch from `0x00:0x00`. The values are the spec's decision D1 (log 4), and the image
is the default, empty one; `halted` is the model's output field (log 1). -/
def Obligations.ResetState : Prop :=
  State.reset.condition = false ∧ State.reset.I = 0x00#8 ∧ State.reset.A = 0x00#8 ∧
  State.reset.IP = 0x00#8 ∧ State.reset.P = 0x00#8 ∧ State.reset.bank_IP = 0x00#8 ∧
  State.reset.bank_P = 0x00#8 ∧ State.reset.halted = false ∧
  (∀ bank addr : Byte, State.reset.memRead bank addr = 0x00#8) ∧
  globalAddr State.reset.bank_IP State.reset.IP = 0x0000#16

/-- 20_memory R34: byte `k` of an image of at most 65536 bytes lies at `(k >> 8):(k & 0xFF)`, every
other byte is zero; a longer image is refused and no run starts; the null memory ignores the
image. -/
def Obligations.RomImageLoads : Prop :=
  ∀ (cfg : Config) (rom : List Byte),
    (rom.length ≤ 65536 → ∃ t, powerOn cfg rom = .next t ∧
      (cfg.memKind = .flat → ∀ k, k < 65536 →
        t.memRead (BitVec.ofNat 8 (k / 256)) (BitVec.ofNat 8 (k % 256)) = rom.getD k 0x00#8) ∧
      (cfg.memKind = .null → powerOn cfg rom = powerOn cfg [])) ∧
    (65536 < rom.length → powerOn cfg rom = .refused .romImageTooLong)

/-- Loading and reset leave the registers zero, the parameters as the host chose them and the memory
in canonical form, whatever the image (70_reset section 1; the values are D1, log 4; the canonical
form is the model's, log 6). -/
def Obligations.PowerOnState : Prop :=
  ∀ (cfg : Config) (rom : List Byte) (t : State), powerOn cfg rom = .next t →
    t.condition = false ∧ t.I = 0x00#8 ∧ t.A = 0x00#8 ∧ t.IP = 0x00#8 ∧ t.P = 0x00#8 ∧
    t.bank_IP = 0x00#8 ∧ t.bank_P = 0x00#8 ∧ t.cfg = cfg ∧ t.wf

/-- The global address is 256 times the bank plus the address, and no two pairs share one
(20_memory section 1). -/
def Obligations.GlobalAddressUnique : Prop :=
  (∀ bank addr : Byte, (globalAddr bank addr).toNat = 256 * bank.toNat + addr.toNat) ∧
  ∀ b a b' a' : Byte, globalAddr b a = globalAddr b' a' → b = b' ∧ a = a'

/-- With the flat memory a read after a write returns the value written at that address, and every
other byte is as before, over all 65536 addresses: none is write-protected (20_memory section 1;
92_eei_decisions D2). The premise is the model's invariant (log 6). -/
def Obligations.FlatWriteThenRead : Prop :=
  ∀ (s : State) (bank addr v : Byte), s.wf → s.cfg.memKind = .flat →
    (s.memWrite bank addr v).memRead bank addr = v ∧
    ∀ bank' addr' : Byte, ¬(bank' = bank ∧ addr' = addr) →
      (s.memWrite bank addr v).memRead bank' addr' = s.memRead bank' addr'

/-- With the null memory every read gives 0 and a write changes nothing (20_memory section 1). -/
def Obligations.NullMemoryDiscardsWrites : Prop :=
  ∀ (s : State) (bank addr v : Byte), s.cfg.memKind = .null →
    s.memRead bank addr = 0x00#8 ∧ s.memWrite bank addr v = s

/-! ### Encoding -/

/-- Decoding the byte of a well-formed instruction gives it back, every operand at every value. -/
def Obligations.DecodeEncode : Prop :=
  ∀ i : Instr, i.wf = true → decode (encode i) = i

/-- Every byte is the encoding of the well-formed instruction it decodes to: decoding is total and
no two bytes mean one instruction (30_encoding sections 3 and 4). -/
def Obligations.EncodeDecode : Prop :=
  ∀ ib : Byte, (decode ib).wf = true ∧ encode (decode ib) = ib

/-- The decoder names the row that spec/opcode_table.json gives the byte, rows of larger mask first
(30_encoding section 3). -/
def Obligations.DecodeMatchesTable : Prop :=
  ∀ ib : Byte, tableLookup ib = some (decode ib).mnemonic

/-- The bytes of the spellings that the source itself uses (30_encoding section 5). -/
def Obligations.DecodeSourceSpellings : Prop :=
  decode 0x0A#8 = .immd ⟨false, false⟩ 0xA#4 ∧ decode 0x05#8 = .immd ⟨false, false⟩ 0x5#4 ∧
  decode 0x30#8 = .onto ⟨false, false⟩ .a .a ∧ decode 0x3F#8 = .setbip ⟨false, false⟩ ∧
  decode 0x2F#8 = .setbp ⟨false, false⟩ ∧ decode 0x13#8 = .halt ⟨false, false⟩ ∧
  decode 0x93#8 = .halt ⟨true, false⟩ ∧ decode 0x53#8 = .halt ⟨false, true⟩ ∧
  decode 0xD3#8 = .halt ⟨true, true⟩

/-- The line of an instruction assembles to its byte, with its sign written or, for predicate 0,
left out (30_encoding section 5; the spellings are the spec's decision D12, log 14). -/
def Obligations.AssembleRenderedLine : Prop :=
  ∀ i : Instr, assemble (renderLine i) = some (encode i) ∧
    (i.guard.predicate = false → assemble (renderLine i).tail = some (encode i))

/-- A term and the instruction its byte decodes to have one meaning in every state; so `bit` and
`onto` of `[P]` and `[P]`, which are not well formed, mean the bank sets that 30_encoding section 5
spells that way (log 17). -/
def Obligations.EncodingKeepsMeaning : Prop :=
  ∀ (i : Instr) (s : State), exec (decode (encode i)) s = exec i s

/-! ### The step -/

/-- When the byte at `bank_IP:IP` is the encoding of a well-formed instruction, the step is that
instruction's `exec`, with nothing around it (40_step section 1). -/
def Obligations.StepRunsDecoded : Prop :=
  ∀ (s : State) (i : Instr), i.wf = true → s.memRead s.bank_IP s.IP = encode i → step s = exec i s

/-- An instruction placed at the program counter is the one the next step runs, every register
being as it was (the model's `withFetchWord`, log 18). -/
def Obligations.PlacedInstructionRuns : Prop :=
  ∀ (s : State) (i : Instr), s.wf → i.wf = true →
    let placed := s.withFetchWord 8 (encode i).toNat
    step placed = exec i placed ∧ placed.wf ∧ placed.condition = s.condition ∧ placed.I = s.I ∧
    placed.A = s.A ∧ placed.IP = s.IP ∧ placed.P = s.P ∧ placed.bank_IP = s.bank_IP ∧
    placed.bank_P = s.bank_P

/-- The step is total: every instruction in every state, and every step, has a next state; nothing
faults and nothing refuses (40_step section 3; 60_exceptions section 1; D18, log 22). -/
def Obligations.StepTotal : Prop :=
  (∀ (i : Instr) (s : State), ∃ t, exec i s = .next t) ∧ ∀ s : State, Safe s

/-- What the four selector values denote as operands (10_state section 7): `A`, `IP`, `P` and the cell
at `bank_P:P`. That `IP` is the un-advanced one is the spec's decision D9 (log 11). -/
def Obligations.SelectorDenotes : Prop :=
  ∀ s : State, readSel s (Sel.ofBits 0#2) = s.A ∧ readSel s (Sel.ofBits 1#2) = s.IP ∧
    readSel s (Sel.ofBits 2#2) = s.P ∧ readSel s (Sel.ofBits 3#2) = s.memRead s.bank_P s.P

/-- The equivalence law: from every state, with no premise, the two forms have the same `halted`, the
same seven registers and the same memory write, address and value or none, and leave the same memory
(47_dataflow; its domain and the memory write are the spec's decision D20, log 21). -/
def Obligations.StepHwAgrees : Prop :=
  EquivalenceLaw

/-- 40_step R75, a skipped instruction: no register but `IP` and `I`, no memory, no bank register and
no condition changes, the output is 0 even for `halt`, `IP` advances by one, and `I` is only shifted
(for `load` too). What enters the low nibble of a skipped `immd` is in ImmdEffect. -/
def Obligations.SkippedInstruction : Prop :=
  ∀ (i : Instr) (s : State), i.guard.predicate ≠ s.condition →
    ∃ t, exec i s = .next t ∧ t.condition = s.condition ∧ t.A = s.A ∧ t.P = s.P ∧
      t.bank_IP = s.bank_IP ∧ t.bank_P = s.bank_P ∧ t.mem = s.mem ∧ t.cfg = s.cfg ∧
      t.halted = false ∧ t.IP = s.IP + 1 ∧
      t.I.extractLsb' 4 4 = s.I.extractLsb' 0 4 ∧
      ((∀ g n, i ≠ .immd g n) → t.I.extractLsb' 0 4 = 0#4)

/-- 40_step R74, the commit: an executed instruction with the commit bit set replaces `condition` by
its computed condition (the table of 10_state R15); otherwise `condition` is unchanged, and a skipped
instruction leaves it whatever its commit bit. The next step's predicate is tested against the new
value. -/
def Obligations.CommitRule : Prop :=
  ∀ (i : Instr) (s : State), ∃ t, exec i s = .next t ∧
    (i.guard.predicate = s.condition → i.guard.commit = true →
      t.condition = computedCondition i s) ∧
    (i.guard.predicate = s.condition → i.guard.commit = false → t.condition = s.condition) ∧
    (i.guard.predicate ≠ s.condition → t.condition = s.condition) ∧
    ∀ u, step t = .next u → (decode (fetch t)).guard.predicate ≠ t.condition →
      u.condition = t.condition ∧ u.IP = t.IP + 1

/-- 40_step R78, the output: it is 1 iff the byte's low six bits are `010011` and its bit 7 equals
`condition`; the epilogue runs in a halting step too; and the output is not stored: a step does not
depend on the field in which the model shows it (log 1). -/
def Obligations.HaltedOutput : Prop :=
  ∀ s : State, (∃ t, step s = .next t ∧
    (t.halted = true ↔
      (fetch s).extractLsb' 0 6 = 0b010011#6 ∧ (fetch s).getLsbD 7 = s.condition) ∧
    (t.halted = true → t.IP = s.IP + 1 ∧ t.I = nextI s 0#4)) ∧
    ∀ b : Bool, step { s with halted := b } = step s

/-- Unless an executed instruction writes through selector 1, the step ends with `IP` one further,
with no carry into `bank_IP`: the bank stays unless the instruction is an executed bank set of
`bank_IP`, which leaves `I` there (40_step section 2; 10_state section 3; 44_bankset). That `inc`,
`dec` and `mix` count as such writes is the spec's decision D5 (log 7); the wrap within the bank is
D15 (log 20). -/
def Obligations.AdvanceUnlessWritten : Prop :=
  ∀ (i : Instr) (s : State), ¬(i.guard.predicate = s.condition ∧ writesIP i = true) →
    ∃ t, exec i s = .next t ∧ t.IP = s.IP + 1 ∧
      t.bank_IP =
        if i.guard.predicate = s.condition ∧ setsBankIP i = true then s.I else s.bank_IP

/-- Every step but an executed `load` leaves `{I[3:0], n}` in `I`, `n` the nibble of an `immd`,
executed or skipped, and else 0 (40_step section 2; the spec's decision D8, log 10). -/
def Obligations.ImmediateShifts : Prop :=
  ∀ (i : Instr) (s : State), ¬(i.guard.predicate = s.condition ∧ ∃ g, i = .load g) →
    ∃ t, exec i s = .next t ∧ t.I = nextI s (entering i)

/-- A step changes `bank_IP` only in an executed `setbip` and `bank_P` only in an executed `setbp`,
and then to `I`; no step changes both (10_state section 6; 44_bankset). -/
def Obligations.BankRegistersChange : Prop :=
  ∀ s t : State, step s = .next t →
    (t.bank_IP ≠ s.bank_IP → (fetch s).extractLsb' 0 6 = 0b111111#6 ∧
      (fetch s).getLsbD 7 = s.condition ∧ t.bank_IP = s.I ∧ t.bank_P = s.bank_P) ∧
    (t.bank_P ≠ s.bank_P → (fetch s).extractLsb' 0 6 = 0b101111#6 ∧
      (fetch s).getLsbD 7 = s.condition ∧ t.bank_P = s.I ∧ t.bank_IP = s.bank_IP)

/-! ### The instructions: result, completion and frame -/

/-- `immd` (41_immd): the nibble enters `I` whether the instruction is executed or skipped (the
spec's decision D8, log 10), a committed one clears `condition`, nothing else but `IP` changes. -/
def Obligations.ImmdEffect : Prop :=
  ∀ (g : Guard) (n : Nibble) (s : State),
    exec (.immd g n) s = .next { s with
      condition := if g.predicate = s.condition ∧ g.commit = true then false else s.condition
      I := nextI s n
      IP := s.IP + 1
      halted := false }

/-- Two consecutive `immd`, each executed or skipped, leave `16 * n1 + n2` in `I` from any state
(41_immd; D8, log 10). -/
def Obligations.ImmdTwice : Prop :=
  ∀ (g₁ g₂ : Guard) (n₁ n₂ : Nibble) (s : State), ∃ t u, exec (.immd g₁ n₁) s = .next t ∧
    exec (.immd g₂ n₂) t = .next u ∧ u.I.toNat = 16 * n₁.toNat + n₂.toNat

/-- One `immd N` after a step that was neither an `immd` nor an executed `load` under `bypass` leaves
`N` in `I` (41_immd; D8, log 10; LOAD_I_MODE, D3, log 3). -/
def Obligations.ImmdAfterOther : Prop :=
  ∀ (i : Instr) (g : Guard) (n : Nibble) (s : State), (∀ g' n', i ≠ .immd g' n') →
    ¬((∃ g', i = .load g') ∧ i.guard.predicate = s.condition ∧ s.cfg.loadIMode = .bypass) →
    ∃ t u, exec i s = .next t ∧ exec (.immd g n) t = .next u ∧ u.I.toNat = n.toNat

/-- Executed `load` (46_load_nop_halt), under both values of LOAD_I_MODE (the spec's decision D3,
log 3): `{A[3:0], 0000}` or `A` in `I`, the complement of `condition` as computed condition, nothing
else but `IP` changed. -/
def Obligations.LoadEffect : Prop :=
  ∀ (g : Guard) (s : State), g.predicate = s.condition →
    exec (.load g) s = .next { s with
      condition := if g.commit then !s.condition else s.condition
      I := match s.cfg.loadIMode with
        | .shifted => s.A.extractLsb' 0 4 ++ 0#4
        | .bypass => s.A
      IP := s.IP + 1
      halted := false }

/-- 46_load_nop_halt R121: the bytes of `nop`, and an executed `nop`: a committed one clears
`condition`, `I` shifts, `IP` advances, nothing else changes. -/
def Obligations.NopEffect : Prop :=
  (∀ p c : Bool, decode (BitVec.ofBool p ++ BitVec.ofBool c ++ 0b010001#6) = .nop ⟨p, c⟩) ∧
  ∀ (g : Guard) (s : State), g.predicate = s.condition →
    exec (.nop g) s = .next { s with
      condition := if g.commit then false else s.condition
      I := nextI s 0#4
      IP := s.IP + 1
      halted := false }

/-- `nop2` does what `nop` does, in every state, and an executed one does this (46_load_nop_halt;
its name is the spec's decision D12, log 14). -/
def Obligations.Nop2Effect : Prop :=
  (∀ (g : Guard) (s : State), exec (.nop2 g) s = exec (.nop g) s) ∧
  ∀ (g : Guard) (s : State), g.predicate = s.condition →
    exec (.nop2 g) s = .next { s with
      condition := if g.commit then false else s.condition
      I := nextI s 0#4
      IP := s.IP + 1
      halted := false }

/-- 46_load_nop_halt R123: the bytes of `halt`; an executed one reports `halted` and runs the
epilogue, and one with the commit bit set clears `condition` too (R123 reads "performs only the
universal epilogue" so, after 90_conflicts C2); nothing else changes; a skipped one reports nothing
and runs the epilogue only; and of `-halt` then `+halt`, exactly one executes. -/
def Obligations.HaltEffect : Prop :=
  (∀ p c : Bool, decode (BitVec.ofBool p ++ BitVec.ofBool c ++ 0b010011#6) = .halt ⟨p, c⟩) ∧
  (∀ (g : Guard) (s : State), g.predicate = s.condition →
    exec (.halt g) s = .next { s with
      condition := if g.commit then false else s.condition
      I := nextI s 0#4
      IP := s.IP + 1
      halted := true }) ∧
  (∀ (g : Guard) (s : State), g.predicate ≠ s.condition →
    exec (.halt g) s = .next { s with I := nextI s 0#4, IP := s.IP + 1, halted := false }) ∧
  ∀ s : State, ∃ t u, exec (.halt ⟨false, false⟩) s = .next t ∧
    exec (.halt ⟨true, false⟩) t = .next u ∧ t.halted = !u.halted

/-- 44_bankset R105: the bytes of `bit [P] [P]`, and an executed one: `bank_P` takes the whole of
`I`, a committed one clears `condition`, `I` shifts, `IP` advances; no memory and no other register
changes. -/
def Obligations.SetbpEffect : Prop :=
  (∀ p c : Bool, decode (BitVec.ofBool p ++ BitVec.ofBool c ++ 0b101111#6) = .setbp ⟨p, c⟩) ∧
  ∀ (g : Guard) (s : State), g.predicate = s.condition →
    exec (.setbp g) s = .next { s with
      bank_P := s.I
      condition := if g.commit then false else s.condition
      I := nextI s 0#4
      IP := s.IP + 1
      halted := false }

/-- 44_bankset R106: the bytes of `onto [P] [P]`, and an executed one: `bank_IP` takes the whole of
`I`, `IP` advances, so the next fetch is from `I:(IP + 1)`; a committed one clears `condition`, `I`
shifts; no memory and no other register changes. No other instruction changes `bank_IP`. -/
def Obligations.SetbipEffect : Prop :=
  (∀ p c : Bool, decode (BitVec.ofBool p ++ BitVec.ofBool c ++ 0b111111#6) = .setbip ⟨p, c⟩) ∧
  (∀ (g : Guard) (s : State), g.predicate = s.condition →
    exec (.setbip g) s = .next { s with
      bank_IP := s.I
      condition := if g.commit then false else s.condition
      I := nextI s 0#4
      IP := s.IP + 1
      halted := false }) ∧
  (∀ (g : Guard) (s t : State), g.predicate = s.condition → exec (.setbip g) s = .next t →
    fetch t = s.memRead s.I (s.IP + 1)) ∧
  ∀ s t : State, step s = .next t → t.bank_IP ≠ s.bank_IP → ∃ g, decode (fetch s) = .setbip g

/-- Executed `inc R`, every `R` (45_incdec_mix; decisions D5, D7, D9, log 7, 9, 11): the operand plus
`I`, wrapping, to the operand; the carry; and nothing else but the epilogue. -/
def Obligations.IncEffect : Prop :=
  ∀ (g : Guard) (r : Sel) (s : State), s.wf → g.predicate = s.condition →
    ∃ t v, exec (.inc g r) s = .next t ∧
      v.toNat = ((readSel s r).toNat + s.I.toNat) % 256 ∧
      Retired g r v (decide (256 ≤ (readSel s r).toNat + s.I.toNat)) s t

/-- Executed `dec R`, every `R` (45_incdec_mix; decisions D5, D7, D9, log 7, 9, 11): the operand
minus `I`, wrapping, to the operand; the borrow, 1 iff the operand is less than `I`; and nothing else
but the epilogue. -/
def Obligations.DecEffect : Prop :=
  ∀ (g : Guard) (r : Sel) (s : State), s.wf → g.predicate = s.condition →
    ∃ t, exec (.dec g r) s = .next t ∧
      Retired g r (readSel s r - s.I) (decide ((readSel s r).toNat < s.I.toNat)) s t

/-- Executed `mix R`, every `R` (45_incdec_mix; decisions D5, D6, D9, D13, log 7, 8, 11, 12): bit
`2g + h` of the result is bit `2j + h` of the operand, `j` the number in bits `2g+1`, `2g` of `I`; the
condition is 1 iff the result is zero; and nothing else but the epilogue. -/
def Obligations.MixEffect : Prop :=
  ∀ (g : Guard) (r : Sel) (s : State), s.wf → g.predicate = s.condition →
    ∃ t v, exec (.mix g r) s = .next t ∧
      (∀ k h, k < 4 → h < 2 → v.getLsbD (2 * k + h) = (readSel s r).getLsbD
        (2 * (2 * (s.I.getLsbD (2 * k + 1)).toNat + (s.I.getLsbD (2 * k)).toNat) + h)) ∧
      Retired g r v (decide (v = 0x00#8)) s t

/-- Executed `bit B R`, every pair but `[P]` and `[P]` (42_bit; under both values of
BIT_INDEX_ORDER, decision D4, log 5; decisions D9, D13, log 11, 12): bit `k` of the result is the bit
of `I[3:0]` at the index that the base bit and the arg bit form; the condition is 1 iff the result's
bit number `I[6:4]` equals `I[7]`; and nothing else but the epilogue. -/
def Obligations.BitEffect : Prop :=
  ∀ (g : Guard) (base arg : Sel) (s : State), ¬(base = .mem ∧ arg = .mem) → s.wf →
    g.predicate = s.condition →
    ∃ t v, exec (.bit g base arg) s = .next t ∧
      (∀ k, k < 8 → v.getLsbD k = s.I.getLsbD (match s.cfg.bitIndexOrder with
        | .baseMsb =>
          2 * ((readSel s base).getLsbD k).toNat + ((readSel s arg).getLsbD k).toNat
        | .argMsb =>
          2 * ((readSel s arg).getLsbD k).toNat + ((readSel s base).getLsbD k).toNat)) ∧
      Retired g base v (v.getLsbD (s.I.toNat / 16 % 8) == s.I.getLsbD 7) s t

/-- Executed `onto B R`, every pair but `[P]` and `[P]` (43_onto; decisions D9, D16, log 11, 15): base
plus arg plus `I`, wrapping, to the base; the condition is 1 iff the exact sum is at least 256; and
nothing else but the epilogue. -/
def Obligations.OntoEffect : Prop :=
  ∀ (g : Guard) (base arg : Sel) (s : State), ¬(base = .mem ∧ arg = .mem) → s.wf →
    g.predicate = s.condition →
    ∃ t v, exec (.onto g base arg) s = .next t ∧
      v.toNat = ((readSel s base).toNat + (readSel s arg).toNat + s.I.toNat) % 256 ∧
      Retired g base v
        (decide (256 ≤ (readSel s base).toNat + (readSel s arg).toNat + s.I.toNat)) s t

/-- The sixteen truth tables of `bit` under `base_msb` (42_bit section with the table; the index order
is the spec's decision D4, log 5). -/
def Obligations.BitTruthTables : Prop :=
  ∀ i b a : Byte,
    let r := bitResult .baseMsb i b a
    let t := i.extractLsb' 0 4
    (t = 0b0000#4 → r = 0x00#8) ∧ (t = 0b0001#4 → r = ~~~(b ||| a)) ∧
    (t = 0b0010#4 → r = ~~~b &&& a) ∧ (t = 0b0011#4 → r = ~~~b) ∧
    (t = 0b0100#4 → r = b &&& ~~~a) ∧ (t = 0b0101#4 → r = ~~~a) ∧
    (t = 0b0110#4 → r = b ^^^ a) ∧ (t = 0b0111#4 → r = ~~~(b &&& a)) ∧
    (t = 0b1000#4 → r = b &&& a) ∧ (t = 0b1001#4 → r = ~~~(b ^^^ a)) ∧
    (t = 0b1010#4 → r = a) ∧ (t = 0b1011#4 → r = ~~~b ||| a) ∧
    (t = 0b1100#4 → r = b) ∧ (t = 0b1101#4 → r = b ||| ~~~a) ∧
    (t = 0b1110#4 → r = b ||| a) ∧ (t = 0b1111#4 → r = 0xFF#8)

/-- The other index order exchanges the roles of base and arg, and makes no difference to a table
whose two middle bits agree (42_bit; the spec's decision D4, log 5). -/
def Obligations.BitIndexOrderSwaps : Prop :=
  ∀ i b a : Byte, bitResult .argMsb i b a = bitResult .baseMsb i a b ∧
    (i.getLsbD 1 = i.getLsbD 2 → bitResult .argMsb i b a = bitResult .baseMsb i b a)

/-- The selections of `mix` that 45_incdec_mix tabulates: identity, nibble swap, the rotations by two
(D13, log 12). -/
def Obligations.MixSelections : Prop :=
  ∀ x : Byte, mixResult 0xE4#8 x = x ∧ mixResult 0x4E#8 x = x.rotateLeft 4 ∧
    mixResult 0x93#8 x = x.rotateLeft 2 ∧ mixResult 0x39#8 x = x.rotateRight 2

/-! ### Accesses, invariants, runs -/

/-- The memory after a step is the memory before it with the step's accesses applied: first the fetch
at `bank_IP:IP`, then at most one operand read and after it at most one write, both at the
start-of-step `bank_P:P` (20_memory sections 2 and 4; the order is the spec's decision D11, log 16).
-/
def Obligations.StepAccesses : Prop :=
  ∀ s : State, ∃ t, step s = .next t ∧
    t.mem = ((accesses s).foldl Access.apply s).mem ∧
    (accesses s = [.fetch (globalAddr s.bank_IP s.IP)] ∨
     accesses s = [.fetch (globalAddr s.bank_IP s.IP), .read (globalAddr s.bank_P s.P)] ∨
     ∃ v, accesses s = [.fetch (globalAddr s.bank_IP s.IP), .read (globalAddr s.bank_P s.P),
       .write (globalAddr s.bank_P s.P) v])

/-- The memory write of a step (20_memory section 2, 40_step section 1; D11, log 16): one is made iff the instruction is executed and
writes its result through selector 3, it is the write among the step's accesses, it is at the
start-of-step `bank_P:P`, and the step's memory is the old one with that write performed, or the old
one where none is made. The equivalence law compares this write with that of the branch-free form. -/
def Obligations.StepStoreIsPerformed : Prop :=
  ∀ s : State, ∃ t, step s = .next t ∧
    ((stepStore s).isSome = true ↔
      (decode (fetch s)).guard.predicate = s.condition ∧
        ∃ v, written (decode (fetch s)) s = some (.mem, v)) ∧
    (stepStore s = none → t.mem = s.mem) ∧
    ∀ w, (stepStore s = some w ↔ Access.write w.addr w.value ∈ accesses s) ∧
      (stepStore s = some w →
        w.addr = globalAddr s.bank_P s.P ∧ t.mem = (s.memWrite s.bank_P s.P w.value).mem)

/-- A store into the next instruction is what the next step fetches, with no barrier, for every form
that stores: executed `bit` and `onto` with base `[P]` and another arg, and `inc`, `dec` and `mix` on
`[P]` (20_memory section 4). `written` gives such an instruction's result, whose value the effect
statements give. -/
def Obligations.StoreSeenByNextFetch : Prop :=
  ∀ (i : Instr) (s : State) (v : Byte), s.wf → s.cfg.memKind = .flat →
    i.guard.predicate = s.condition → written i s = some (.mem, v) →
    globalAddr s.bank_IP (s.IP + 1) = dataAddr s →
    ∃ t, exec i s = .next t ∧ globalAddr t.bank_IP t.IP = dataAddr s ∧ fetch t = v

/-- Every form that writes a result, and only those, writes it through the selector that is its
destination: `bit` and `onto` their base unless both operands are `[P]`, `inc`, `dec` and `mix` their
operand; executed, it retires that result, and one that writes none keeps `A`, `P` and memory
(10_state section 8, 40_step section 2; the spec's decisions D5, D6, D9, log 7, 8, 11). -/
def Obligations.WrittenThroughDestination : Prop :=
  (∀ (g : Guard) (r : Sel) (s : State), (∃ v, written (.mix g r) s = some (r, v)) ∧
    (∃ v, written (.inc g r) s = some (r, v)) ∧ ∃ v, written (.dec g r) s = some (r, v)) ∧
  (∀ (g : Guard) (base arg : Sel) (s : State), ¬(base = .mem ∧ arg = .mem) →
    (∃ v, written (.bit g base arg) s = some (base, v)) ∧
    ∃ v, written (.onto g base arg) s = some (base, v)) ∧
  ∀ (i : Instr) (s : State), i.guard.predicate = s.condition →
    match written i s with
    | some (r, v) => s.wf → ∃ t, exec i s = .next t ∧
        Retired i.guard r v (computedCondition i s) s t
    | none => ∃ t, exec i s = .next t ∧ t.A = s.A ∧ t.P = s.P ∧ t.mem = s.mem ∧ t.IP = s.IP + 1

/-- The memory is in canonical form after reset (the model's invariant, log 6). -/
def Obligations.ResetIsWellFormed : Prop :=
  State.reset.wf

/-- Every step keeps the memory in canonical form (the model's invariant, log 6). -/
def Obligations.StepKeepsWellFormed : Prop :=
  ∀ s t : State, s.wf → step s = .next t → t.wf

/-- No step changes the parameters, so a statement over every state holds for every value of them
(00_scope section 4; their place in State is the model's, log 2). -/
def Obligations.StepKeepsParameters : Prop :=
  ∀ s t : State, step s = .next t → t.cfg = s.cfg

/-- A run that ends is what a large enough step count observes, however large it is (40_step
section 4; that the run ends at the first halting step is the spec's decision D10, log 13). -/
def Obligations.RunEndIsObserved : Prop :=
  ∀ s t : State, RunEnds s t → ∃ n, ∀ m, n ≤ m → runFor m s = .next t

/-- From a code bank of zero bytes, and with the null memory from any state, no run ends (20_memory
section 1; 70_reset section 4; D10, log 13). -/
def Obligations.ZeroBankNeverEnds : Prop :=
  ∀ s : State, (∀ addr : Byte, s.memRead s.bank_IP addr = 0x00#8) → ¬∃ t, RunEnds s t

/-- With the bytes `0x13 0x93` at the program counter and the one after it the run ends within two
steps, whatever the condition (46_load_nop_halt; D10, log 13). -/
def Obligations.HaltPairEndsRun : Prop :=
  ∀ s : State, s.memRead s.bank_IP s.IP = 0x13#8 → s.memRead s.bank_IP (s.IP + 1) = 0x93#8 →
    ∃ t, RunEnds s t ∧ runFor 2 s = .next t ∧ t.condition = s.condition
end

