-- ==== Sys2Proof/Laws/Alu.lean ====
section
/-!
SUPPORT. The bit-level reading of the ALU's results (42_bit R95, 45_incdec_mix R112).
-/
namespace Sys2Proof.Machine

/-- Bit `k` of a byte built from its bits. -/
theorem byteOfBits_getLsbD (f : Nat → Bool) {k : Nat} (hk : k < 8) :
    (byteOfBits f).getLsbD k = f k := by
  unfold byteOfBits
  interval_cases k <;> simp only [BitVec.getLsbD_append, BitVec.getLsbD_ofBool] <;> simp

/-- Bit `k` of the result of `bit` (42_bit R95). -/
theorem bitResult_getLsbD (o : BitIndexOrder) (i b a : Byte) {k : Nat} (hk : k < 8) :
    (bitResult o i b a).getLsbD k = i.getLsbD (bitIndex o (b.getLsbD k) (a.getLsbD k)) :=
  byteOfBits_getLsbD _ hk

/-- The groups of a byte built from four groups. -/
theorem group_append (x3 x2 x1 x0 : Pair) :
    group (x3 ++ x2 ++ x1 ++ x0) 0 = x0 ∧ group (x3 ++ x2 ++ x1 ++ x0) 1 = x1 ∧
      group (x3 ++ x2 ++ x1 ++ x0) 2 = x2 ∧ group (x3 ++ x2 ++ x1 ++ x0) 3 = x3 := by
  revert x3 x2 x1 x0
  decide

/-- Group `g` of the result of `mix` is the operand's group numbered by group `g` of `I`
(45_incdec_mix R112). -/
theorem group_mixResult (i a : Byte) {g : Nat} (hg : g < 4) :
    group (mixResult i a) g = group a (group i g).toNat := by
  obtain ⟨h0, h1, h2, h3⟩ := group_append (group a (group i 3).toNat)
    (group a (group i 2).toNat) (group a (group i 1).toNat) (group a (group i 0).toNat)
  interval_cases g
  · exact h0
  · exact h1
  · exact h2
  · exact h3

end Sys2Proof.Machine
end

