-- ==== Sys2Proof/Laws/Memory.lean ====
section
/-!
SUPPORT. The laws of the flat memory's contents: reading after a write, and that every operation
keeps the canonical form (20_memory R32, R34).
-/
namespace Sys2Proof.Machine

/-- `Memory.wfFrom` of a nonempty list, as propositions. -/
theorem Memory.wfFrom_cons_iff {lo k : Nat} {v : Byte} {m : Memory} :
    Memory.wfFrom lo ((k, v) :: m) = true ↔
      lo ≤ k ∧ k < 65536 ∧ v ≠ Memory.unlisted ∧ Memory.wfFrom (k + 1) m = true := by
  simp [Memory.wfFrom, and_assoc]

/-- A memory canonical from an address upward is so from any lower address. -/
theorem Memory.wfFrom_mono {lo lo' : Nat} {m : Memory} (hle : lo' ≤ lo)
    (h : Memory.wfFrom lo m = true) : Memory.wfFrom lo' m = true := by
  cases m with
  | nil => rfl
  | cons c m =>
    obtain ⟨k, v⟩ := c
    rw [Memory.wfFrom_cons_iff] at h ⊢
    exact ⟨hle.trans h.1, h.2⟩

/-- Below the first address of a canonical memory nothing is listed. -/
theorem Memory.read_eq_unlisted_of_lt {lo a : Nat} {m : Memory} (h : Memory.wfFrom lo m = true)
    (ha : a < lo) : Memory.read m a = Memory.unlisted := by
  induction m generalizing lo with
  | nil => rfl
  | cons c m ih =>
    obtain ⟨k, v⟩ := c
    rw [Memory.wfFrom_cons_iff] at h
    rw [Memory.read, if_neg (by omega)]
    exact ih h.2.2.2 (by omega)

/-- The entry of one address in front of higher ones keeps the canonical form. -/
theorem Memory.cons_wfFrom {lo a : Nat} {v : Byte} {m : Memory} (hlo : lo ≤ a) (ha : a < 65536)
    (h : Memory.wfFrom (a + 1) m = true) : Memory.wfFrom lo (Memory.cons a v m) = true := by
  unfold Memory.cons
  split
  · exact Memory.wfFrom_mono (by omega) h
  · rename_i hv
    exact Memory.wfFrom_cons_iff.mpr ⟨hlo, ha, hv, h⟩

/-- Reading behind the entry of one address. -/
theorem Memory.read_cons {a b : Nat} {v : Byte} {m : Memory}
    (h : Memory.wfFrom (a + 1) m = true) :
    Memory.read (Memory.cons a v m) b = if b = a then v else Memory.read m b := by
  unfold Memory.cons
  by_cases hv : v = Memory.unlisted
  · rw [if_pos hv]
    split
    · rename_i hb
      rw [hb, hv, Memory.read_eq_unlisted_of_lt h (by omega)]
    · rfl
  · rw [if_neg hv, Memory.read]
    simp only [eq_comm]

/-- A write to an address of the space keeps the canonical form. -/
theorem Memory.write_wfFrom {lo a : Nat} {v : Byte} {m : Memory} (hlo : lo ≤ a) (ha : a < 65536)
    (h : Memory.wfFrom lo m = true) : Memory.wfFrom lo (Memory.write m a v) = true := by
  induction m generalizing lo with
  | nil => exact Memory.cons_wfFrom hlo ha rfl
  | cons c m ih =>
    obtain ⟨k, w⟩ := c
    obtain ⟨hk, hk', hw, hm⟩ := Memory.wfFrom_cons_iff.mp h
    rw [Memory.write]
    split
    · exact Memory.cons_wfFrom hlo ha (Memory.wfFrom_cons_iff.mpr ⟨by omega, hk', hw, hm⟩)
    · split
      · rename_i hak
        exact Memory.cons_wfFrom hlo ha (hak ▸ hm)
      · exact Memory.wfFrom_cons_iff.mpr ⟨hk, hk', hw, ih (by omega) hm⟩

/-- A write to an address of the space keeps a well-formed memory well formed. -/
theorem Memory.write_wf {a : Nat} {v : Byte} {m : Memory} (ha : a < 65536)
    (h : Memory.wf m = true) : Memory.wf (Memory.write m a v) = true :=
  Memory.write_wfFrom (Nat.zero_le a) ha h

/-- Reading a well-formed memory after a write: the byte written at its address, and every other
byte as before (20_memory R32). -/
theorem Memory.read_write_wfFrom {lo a b : Nat} {v : Byte} {m : Memory}
    (h : Memory.wfFrom lo m = true) :
    Memory.read (Memory.write m a v) b = if b = a then v else Memory.read m b := by
  induction m generalizing lo with
  | nil => exact Memory.read_cons rfl
  | cons c m ih =>
    obtain ⟨k, w⟩ := c
    obtain ⟨hk, hk', hw, hm⟩ := Memory.wfFrom_cons_iff.mp h
    rw [Memory.write]
    split
    · exact Memory.read_cons (Memory.wfFrom_cons_iff.mpr ⟨by omega, hk', hw, hm⟩)
    · split
      · rename_i hak
        rw [Memory.read_cons (hak ▸ hm), Memory.read, hak]
        split
        · rfl
        · rw [if_neg (by omega)]
      · rename_i hak
        rw [Memory.read, ih hm, Memory.read]
        split
        · rw [if_neg (by omega)]
        · rfl

/-- `Memory.read_write_wfFrom` for a well-formed memory. -/
theorem Memory.read_write {a b : Nat} {v : Byte} {m : Memory} (h : Memory.wf m = true) :
    Memory.read (Memory.write m a v) b = if b = a then v else Memory.read m b :=
  Memory.read_write_wfFrom h

/-- An image that ends inside the space loads in canonical form (20_memory R34). -/
theorem imageCells_wfFrom {bs : List Byte} {k : Nat} (h : k + bs.length ≤ 65536) :
    Memory.wfFrom k (imageCells k bs) = true := by
  induction bs generalizing k with
  | nil => rfl
  | cons b bs ih =>
    rw [List.length_cons] at h
    exact Memory.cons_wfFrom le_rfl (by omega) (ih (by omega))

/-- The bytes of a loaded image (20_memory R34). -/
theorem read_imageCells {bs : List Byte} {k a : Nat} (h : k + bs.length ≤ 65536) (hk : k ≤ a) :
    Memory.read (imageCells k bs) a = bs.getD (a - k) Memory.unlisted := by
  induction bs generalizing k with
  | nil => simp [imageCells, Memory.read]
  | cons b bs ih =>
    rw [List.length_cons] at h
    rw [imageCells, Memory.read_cons (imageCells_wfFrom (by omega))]
    split
    · rename_i hak
      simp [hak]
    · rename_i hak
      rw [ih (by omega) (by omega), show a - k = (a - (k + 1)) + 1 by omega]
      rfl

end Sys2Proof.Machine
end

