-- ==== Sys2Proof/Laws/State.lean ====
section
/-!
SUPPORT. One lemma per field of State per register update, so that no proof unfolds an update.
-/
namespace Sys2Proof.Machine

variable (s : State)

/-! ### setCondition -/

@[simp] theorem State.setCondition_condition (b : Bool) : (s.setCondition b).condition = b := rfl
@[simp] theorem State.setCondition_I (b : Bool) : (s.setCondition b).I = s.I := rfl
@[simp] theorem State.setCondition_A (b : Bool) : (s.setCondition b).A = s.A := rfl
@[simp] theorem State.setCondition_IP (b : Bool) : (s.setCondition b).IP = s.IP := rfl
@[simp] theorem State.setCondition_P (b : Bool) : (s.setCondition b).P = s.P := rfl
@[simp] theorem State.setCondition_bank_IP (b : Bool) : (s.setCondition b).bank_IP = s.bank_IP := rfl
@[simp] theorem State.setCondition_bank_P (b : Bool) : (s.setCondition b).bank_P = s.bank_P := rfl
@[simp] theorem State.setCondition_mem (b : Bool) : (s.setCondition b).mem = s.mem := rfl
@[simp] theorem State.setCondition_cfg (b : Bool) : (s.setCondition b).cfg = s.cfg := rfl
@[simp] theorem State.setCondition_halted (b : Bool) : (s.setCondition b).halted = s.halted := rfl

/-! ### setI -/

@[simp] theorem State.setI_condition (v : Byte) : (s.setI v).condition = s.condition := rfl
@[simp] theorem State.setI_I (v : Byte) : (s.setI v).I = v := rfl
@[simp] theorem State.setI_A (v : Byte) : (s.setI v).A = s.A := rfl
@[simp] theorem State.setI_IP (v : Byte) : (s.setI v).IP = s.IP := rfl
@[simp] theorem State.setI_P (v : Byte) : (s.setI v).P = s.P := rfl
@[simp] theorem State.setI_bank_IP (v : Byte) : (s.setI v).bank_IP = s.bank_IP := rfl
@[simp] theorem State.setI_bank_P (v : Byte) : (s.setI v).bank_P = s.bank_P := rfl
@[simp] theorem State.setI_mem (v : Byte) : (s.setI v).mem = s.mem := rfl
@[simp] theorem State.setI_cfg (v : Byte) : (s.setI v).cfg = s.cfg := rfl
@[simp] theorem State.setI_halted (v : Byte) : (s.setI v).halted = s.halted := rfl

/-! ### setA -/

@[simp] theorem State.setA_condition (v : Byte) : (s.setA v).condition = s.condition := rfl
@[simp] theorem State.setA_I (v : Byte) : (s.setA v).I = s.I := rfl
@[simp] theorem State.setA_A (v : Byte) : (s.setA v).A = v := rfl
@[simp] theorem State.setA_IP (v : Byte) : (s.setA v).IP = s.IP := rfl
@[simp] theorem State.setA_P (v : Byte) : (s.setA v).P = s.P := rfl
@[simp] theorem State.setA_bank_IP (v : Byte) : (s.setA v).bank_IP = s.bank_IP := rfl
@[simp] theorem State.setA_bank_P (v : Byte) : (s.setA v).bank_P = s.bank_P := rfl
@[simp] theorem State.setA_mem (v : Byte) : (s.setA v).mem = s.mem := rfl
@[simp] theorem State.setA_cfg (v : Byte) : (s.setA v).cfg = s.cfg := rfl
@[simp] theorem State.setA_halted (v : Byte) : (s.setA v).halted = s.halted := rfl

/-! ### setIP -/

@[simp] theorem State.setIP_condition (v : Byte) : (s.setIP v).condition = s.condition := rfl
@[simp] theorem State.setIP_I (v : Byte) : (s.setIP v).I = s.I := rfl
@[simp] theorem State.setIP_A (v : Byte) : (s.setIP v).A = s.A := rfl
@[simp] theorem State.setIP_IP (v : Byte) : (s.setIP v).IP = v := rfl
@[simp] theorem State.setIP_P (v : Byte) : (s.setIP v).P = s.P := rfl
@[simp] theorem State.setIP_bank_IP (v : Byte) : (s.setIP v).bank_IP = s.bank_IP := rfl
@[simp] theorem State.setIP_bank_P (v : Byte) : (s.setIP v).bank_P = s.bank_P := rfl
@[simp] theorem State.setIP_mem (v : Byte) : (s.setIP v).mem = s.mem := rfl
@[simp] theorem State.setIP_cfg (v : Byte) : (s.setIP v).cfg = s.cfg := rfl
@[simp] theorem State.setIP_halted (v : Byte) : (s.setIP v).halted = s.halted := rfl

/-! ### setP -/

@[simp] theorem State.setP_condition (v : Byte) : (s.setP v).condition = s.condition := rfl
@[simp] theorem State.setP_I (v : Byte) : (s.setP v).I = s.I := rfl
@[simp] theorem State.setP_A (v : Byte) : (s.setP v).A = s.A := rfl
@[simp] theorem State.setP_IP (v : Byte) : (s.setP v).IP = s.IP := rfl
@[simp] theorem State.setP_P (v : Byte) : (s.setP v).P = v := rfl
@[simp] theorem State.setP_bank_IP (v : Byte) : (s.setP v).bank_IP = s.bank_IP := rfl
@[simp] theorem State.setP_bank_P (v : Byte) : (s.setP v).bank_P = s.bank_P := rfl
@[simp] theorem State.setP_mem (v : Byte) : (s.setP v).mem = s.mem := rfl
@[simp] theorem State.setP_cfg (v : Byte) : (s.setP v).cfg = s.cfg := rfl
@[simp] theorem State.setP_halted (v : Byte) : (s.setP v).halted = s.halted := rfl

/-! ### setBankIP -/

@[simp] theorem State.setBankIP_condition (v : Byte) : (s.setBankIP v).condition = s.condition := rfl
@[simp] theorem State.setBankIP_I (v : Byte) : (s.setBankIP v).I = s.I := rfl
@[simp] theorem State.setBankIP_A (v : Byte) : (s.setBankIP v).A = s.A := rfl
@[simp] theorem State.setBankIP_IP (v : Byte) : (s.setBankIP v).IP = s.IP := rfl
@[simp] theorem State.setBankIP_P (v : Byte) : (s.setBankIP v).P = s.P := rfl
@[simp] theorem State.setBankIP_bank_IP (v : Byte) : (s.setBankIP v).bank_IP = v := rfl
@[simp] theorem State.setBankIP_bank_P (v : Byte) : (s.setBankIP v).bank_P = s.bank_P := rfl
@[simp] theorem State.setBankIP_mem (v : Byte) : (s.setBankIP v).mem = s.mem := rfl
@[simp] theorem State.setBankIP_cfg (v : Byte) : (s.setBankIP v).cfg = s.cfg := rfl
@[simp] theorem State.setBankIP_halted (v : Byte) : (s.setBankIP v).halted = s.halted := rfl

/-! ### setBankP -/

@[simp] theorem State.setBankP_condition (v : Byte) : (s.setBankP v).condition = s.condition := rfl
@[simp] theorem State.setBankP_I (v : Byte) : (s.setBankP v).I = s.I := rfl
@[simp] theorem State.setBankP_A (v : Byte) : (s.setBankP v).A = s.A := rfl
@[simp] theorem State.setBankP_IP (v : Byte) : (s.setBankP v).IP = s.IP := rfl
@[simp] theorem State.setBankP_P (v : Byte) : (s.setBankP v).P = s.P := rfl
@[simp] theorem State.setBankP_bank_IP (v : Byte) : (s.setBankP v).bank_IP = s.bank_IP := rfl
@[simp] theorem State.setBankP_bank_P (v : Byte) : (s.setBankP v).bank_P = v := rfl
@[simp] theorem State.setBankP_mem (v : Byte) : (s.setBankP v).mem = s.mem := rfl
@[simp] theorem State.setBankP_cfg (v : Byte) : (s.setBankP v).cfg = s.cfg := rfl
@[simp] theorem State.setBankP_halted (v : Byte) : (s.setBankP v).halted = s.halted := rfl

/-! ### setMem -/

@[simp] theorem State.setMem_condition (m : Memory) : (s.setMem m).condition = s.condition := rfl
@[simp] theorem State.setMem_I (m : Memory) : (s.setMem m).I = s.I := rfl
@[simp] theorem State.setMem_A (m : Memory) : (s.setMem m).A = s.A := rfl
@[simp] theorem State.setMem_IP (m : Memory) : (s.setMem m).IP = s.IP := rfl
@[simp] theorem State.setMem_P (m : Memory) : (s.setMem m).P = s.P := rfl
@[simp] theorem State.setMem_bank_IP (m : Memory) : (s.setMem m).bank_IP = s.bank_IP := rfl
@[simp] theorem State.setMem_bank_P (m : Memory) : (s.setMem m).bank_P = s.bank_P := rfl
@[simp] theorem State.setMem_mem (m : Memory) : (s.setMem m).mem = m := rfl
@[simp] theorem State.setMem_cfg (m : Memory) : (s.setMem m).cfg = s.cfg := rfl
@[simp] theorem State.setMem_halted (m : Memory) : (s.setMem m).halted = s.halted := rfl

/-! ### setHalted -/

@[simp] theorem State.setHalted_condition (b : Bool) : (s.setHalted b).condition = s.condition := rfl
@[simp] theorem State.setHalted_I (b : Bool) : (s.setHalted b).I = s.I := rfl
@[simp] theorem State.setHalted_A (b : Bool) : (s.setHalted b).A = s.A := rfl
@[simp] theorem State.setHalted_IP (b : Bool) : (s.setHalted b).IP = s.IP := rfl
@[simp] theorem State.setHalted_P (b : Bool) : (s.setHalted b).P = s.P := rfl
@[simp] theorem State.setHalted_bank_IP (b : Bool) : (s.setHalted b).bank_IP = s.bank_IP := rfl
@[simp] theorem State.setHalted_bank_P (b : Bool) : (s.setHalted b).bank_P = s.bank_P := rfl
@[simp] theorem State.setHalted_mem (b : Bool) : (s.setHalted b).mem = s.mem := rfl
@[simp] theorem State.setHalted_cfg (b : Bool) : (s.setHalted b).cfg = s.cfg := rfl
@[simp] theorem State.setHalted_halted (b : Bool) : (s.setHalted b).halted = b := rfl

end Sys2Proof.Machine
end

