-- ==== Sys2Proof/Laws/Step.lean ====
section
/-!
SUPPORT. What each shared operation of a step does, said once: the memory capability, the commit,
the epilogue, the selector write and the retirement of a result.
-/
namespace Sys2Proof.Machine

/-! ### The memory capability -/

@[simp] theorem memRead_setCondition (s : State) (b : Bool) (x y : Byte) :
    (s.setCondition b).memRead x y = s.memRead x y := rfl
@[simp] theorem memRead_setI (s : State) (v x y : Byte) :
    (s.setI v).memRead x y = s.memRead x y := rfl
@[simp] theorem memRead_setA (s : State) (v x y : Byte) :
    (s.setA v).memRead x y = s.memRead x y := rfl
@[simp] theorem memRead_setIP (s : State) (v x y : Byte) :
    (s.setIP v).memRead x y = s.memRead x y := rfl
@[simp] theorem memRead_setP (s : State) (v x y : Byte) :
    (s.setP v).memRead x y = s.memRead x y := rfl
@[simp] theorem memRead_setBankIP (s : State) (v x y : Byte) :
    (s.setBankIP v).memRead x y = s.memRead x y := rfl
@[simp] theorem memRead_setBankP (s : State) (v x y : Byte) :
    (s.setBankP v).memRead x y = s.memRead x y := rfl
@[simp] theorem memRead_setHalted (s : State) (b : Bool) (x y : Byte) :
    (s.setHalted b).memRead x y = s.memRead x y := rfl

/-- A global address lies inside the 65536 of 20_memory R30. -/
theorem globalAddr_toNat_lt (bank addr : Byte) : (globalAddr bank addr).toNat < 65536 :=
  (globalAddr bank addr).isLt

/-- A memory write changes the memory's contents and nothing else. -/
theorem memWrite_eq (s : State) (bank addr v : Byte) :
    s.memWrite bank addr v = s.setMem (s.memWrite bank addr v).mem := by
  unfold State.memWrite
  split <;> rfl

@[simp] theorem memWrite_condition (s : State) (x y v : Byte) :
    (s.memWrite x y v).condition = s.condition := by rw [memWrite_eq]; rfl
@[simp] theorem memWrite_I (s : State) (x y v : Byte) : (s.memWrite x y v).I = s.I := by
  rw [memWrite_eq]; rfl
@[simp] theorem memWrite_A (s : State) (x y v : Byte) : (s.memWrite x y v).A = s.A := by
  rw [memWrite_eq]; rfl
@[simp] theorem memWrite_IP (s : State) (x y v : Byte) : (s.memWrite x y v).IP = s.IP := by
  rw [memWrite_eq]; rfl
@[simp] theorem memWrite_P (s : State) (x y v : Byte) : (s.memWrite x y v).P = s.P := by
  rw [memWrite_eq]; rfl
@[simp] theorem memWrite_bank_IP (s : State) (x y v : Byte) :
    (s.memWrite x y v).bank_IP = s.bank_IP := by rw [memWrite_eq]; rfl
@[simp] theorem memWrite_bank_P (s : State) (x y v : Byte) :
    (s.memWrite x y v).bank_P = s.bank_P := by rw [memWrite_eq]; rfl
@[simp] theorem memWrite_cfg (s : State) (x y v : Byte) : (s.memWrite x y v).cfg = s.cfg := by
  rw [memWrite_eq]; rfl
@[simp] theorem memWrite_halted (s : State) (x y v : Byte) :
    (s.memWrite x y v).halted = s.halted := by rw [memWrite_eq]; rfl

/-- A memory write keeps the canonical form. -/
theorem memWrite_wf {s : State} (bank addr v : Byte) (h : s.wf) :
    (s.memWrite bank addr v).wf := by
  unfold State.memWrite
  split
  · exact Memory.write_wf (globalAddr_toNat_lt bank addr) h
  · exact h

/-! ### Commit and epilogue -/

/-- The commit changes the condition and nothing else (40_step R74). -/
theorem commit_eq (g : Guard) (c : Bool) (s : State) :
    commit g c s = s.setCondition (if g.commit then c else s.condition) := by
  unfold commit
  split <;> rfl

/-- Shifting `I` and letting a nibble in is the concatenation of 40_step R77. -/
theorem shiftI_eq (n : Nibble) (s : State) : shiftI n s = s.setI (nextI s n) := by
  have h : ∀ (i : Byte) (n : Nibble), i <<< 4 ||| n.setWidth 8 = i.extractLsb' 0 4 ++ n := by
    decide
  unfold shiftI nextI
  rw [h]

/-- The epilogue as one update (40_step R76 to R78). -/
theorem epilogue_eq (n : Nibble) (s : State) :
    epilogue n s = { s with IP := s.IP + 1, I := nextI s n, halted := false } := by
  unfold epilogue
  rw [shiftI_eq]
  rfl

/-- The epilogue after a selector write as one update (40_step R76, R77). -/
theorem epilogueAfterWrite_eq (r : Sel) (s : State) :
    epilogueAfterWrite r s =
      { s with IP := if r = .ip then s.IP else s.IP + 1, I := nextI s 0#4, halted := false } := by
  unfold epilogueAfterWrite
  split
  · rw [shiftI_eq]; rfl
  · exact epilogue_eq _ _

/-- An executed instruction's step is its executed state (40_step R72, R73). -/
theorem predicated_executed {g : Guard} {n : Nibble} {f : State → State} {s : State}
    (h : g.predicate = s.condition) : predicated g n f s = .next (f s) := by
  simp [predicated, executes, h]

/-- A skipped instruction's step is the epilogue alone (40_step R75). -/
theorem predicated_skipped {g : Guard} {n : Nibble} {f : State → State} {s : State}
    (h : g.predicate ≠ s.condition) : predicated g n f s = .next (epilogue n s) := by
  simp [predicated, executes, h]

/-! ### Retirement -/

/-- A retirement as one update of the state after the selector write. -/
theorem retire_eq (g : Guard) (r : Sel) (v : Byte) (c : Bool) (s : State) :
    retire g r v c s =
      { writeSel r v s with
        condition := if g.commit then c else (writeSel r v s).condition
        IP := if r = .ip then (writeSel r v s).IP else (writeSel r v s).IP + 1
        I := nextI (writeSel r v s) 0#4
        halted := false } := by
  unfold retire
  rw [epilogueAfterWrite_eq, commit_eq]
  rfl

/-! ### The selector write, field by field -/

variable (r : Sel) (v : Byte) (s : State)

@[simp] theorem writeSel_condition : (writeSel r v s).condition = s.condition := by
  cases r <;> simp [writeSel]
@[simp] theorem writeSel_I : (writeSel r v s).I = s.I := by
  cases r <;> simp [writeSel]
@[simp] theorem writeSel_A : (writeSel r v s).A = if r = .a then v else s.A := by
  cases r <;> simp [writeSel]
@[simp] theorem writeSel_IP : (writeSel r v s).IP = if r = .ip then v else s.IP := by
  cases r <;> simp [writeSel]
@[simp] theorem writeSel_P : (writeSel r v s).P = if r = .p then v else s.P := by
  cases r <;> simp [writeSel]
@[simp] theorem writeSel_bank_IP : (writeSel r v s).bank_IP = s.bank_IP := by
  cases r <;> simp [writeSel]
@[simp] theorem writeSel_bank_P : (writeSel r v s).bank_P = s.bank_P := by
  cases r <;> simp [writeSel]
@[simp] theorem writeSel_cfg : (writeSel r v s).cfg = s.cfg := by
  cases r <;> simp [writeSel]

/-- The memory after a selector write: only selector 3 reaches it. -/
@[simp] theorem writeSel_mem : (writeSel r v s).mem =
    if r = .mem then (s.memWrite s.bank_P s.P v).mem else s.mem := by
  cases r <;> simp [writeSel]

omit s in
/-- A selector write keeps the canonical form. -/
theorem writeSel_wf {s : State} (h : s.wf) : (writeSel r v s).wf := by
  cases r with
  | a => exact h
  | ip => exact h
  | p => exact h
  | mem => exact memWrite_wf _ _ _ h

end Sys2Proof.Machine
end

