-- ==== Sys2Proof/Laws/Exec.lean ====
section
/-!
SUPPORT. What `exec` can answer, said once: the executed state where the predicate matches, the
epilogue where it does not (40_step R72, R75). Proofs about every instruction start here.
-/
namespace Sys2Proof.Machine

/-- The next state of an executed instruction. -/
def executedState (i : Instr) (s : State) : State :=
  match i with
  | .immd g n => epilogue n (commit g false s)
  | .load g => loadExecuted g s
  | .nop g => epilogue 0#4 (commit g false s)
  | .nop2 g => epilogue 0#4 (commit g false s)
  | .halt g => (epilogue 0#4 (commit g false s)).setHalted true
  | .mix g r =>
    retire g r (mixResult s.I (readSel s r)) (mixZero (mixResult s.I (readSel s r))) s
  | .inc g r => retire g r (incResult s.I (readSel s r)) (incCarry s.I (readSel s r)) s
  | .dec g r => retire g r (decResult s.I (readSel s r)) (decBorrow s.I (readSel s r)) s
  | .bit g base arg =>
    if Sel.bothMem base arg then setBankPFromI g s else bitExecuted g base arg s
  | .setbp g => setBankPFromI g s
  | .onto g base arg =>
    if Sel.bothMem base arg then setBankIPFromI g s else ontoExecuted g base arg s
  | .setbip g => setBankIPFromI g s

/-- Every instruction, in every state. -/
theorem exec_eq (i : Instr) (s : State) :
    exec i s = .next (if executes i.guard s then executedState i s else epilogue (entering i) s) := by
  cases i <;> rfl

/-- An executed instruction (40_step R73). -/
theorem exec_executed (i : Instr) (s : State) (h : i.guard.predicate = s.condition) :
    exec i s = .next (executedState i s) := by
  simp [exec_eq, executes, h]

/-- A skipped instruction (40_step R75). -/
theorem exec_skipped (i : Instr) (s : State) (h : i.guard.predicate ≠ s.condition) :
    exec i s = .next (epilogue (entering i) s) := by
  simp [exec_eq, executes, h]

/-- The two-register operations on `[P]` and `[P]`, and only those, are the bank sets. -/
theorem bothMem_iff (base arg : Sel) :
    Sel.bothMem base arg = true ↔ base = .mem ∧ arg = .mem := by
  simp [Sel.bothMem]

/-- An executed instruction that writes a result retires it, with the computed condition of 10_state
R15: the one description of all five of them. -/
theorem executedState_of_written {i : Instr} {s : State} {r : Sel} {v : Byte}
    (h : written i s = some (r, v)) :
    executedState i s = retire i.guard r v (computedCondition i s) s := by
  cases i <;> simp only [written, Option.some.injEq, Prod.mk.injEq, reduceCtorEq] at h
  case mix | inc | dec => obtain ⟨rfl, rfl⟩ := h; rfl
  case bit g base arg =>
    split at h
    · cases h
    · rename_i hb
      cases h
      simp only [executedState, computedCondition, if_neg hb, bitExecuted, Instr.guard]
  case onto g base arg =>
    split at h
    · cases h
    · rename_i hb
      cases h
      simp only [executedState, computedCondition, if_neg hb, ontoExecuted, Instr.guard]

/-- Which selector `storeOf` reaches the memory through, and what it stores. -/
theorem storeOf_eq_some_iff {i : Instr} {s : State} {w : Store} :
    storeOf i s = some w ↔ w.addr = dataAddr s ∧ written i s = some (.mem, w.value) := by
  obtain ⟨a, v⟩ := w
  unfold storeOf
  split
  · rename_i h
    simp [h, eq_comm]
  · rename_i h
    simp only [reduceCtorEq, false_iff, not_and]
    exact fun _ => h _

end Sys2Proof.Machine
end

