-- ==== Sys2Proof/Laws/PerInstr.lean ====
section
/-!
SUPPORT. A statement about every instruction, one lemma per constructor: the guard and the major
opcode stand in the fields of the encoded byte that 30_encoding R51 names.
-/
namespace Sys2Proof.Laws

/-- The major opcode of an instruction (30_encoding R52). -/
def EncodeFields.major : Instr → Pair
  | .immd _ _ => 0b00#2
  | .load _ => 0b01#2
  | .nop _ => 0b01#2
  | .nop2 _ => 0b01#2
  | .halt _ => 0b01#2
  | .mix _ _ => 0b01#2
  | .inc _ _ => 0b01#2
  | .dec _ _ => 0b01#2
  | .bit _ _ _ => 0b10#2
  | .setbp _ => 0b10#2
  | .onto _ _ _ => 0b11#2
  | .setbip _ => 0b11#2

/-- Bit 7 of the encoding is the predicate, bit 6 the commit bit, bits 5-4 the major opcode. -/
def EncodeFields.Statement (i : Instr) : Prop :=
  guardField (encode i) = i.guard ∧ majorField (encode i) = EncodeFields.major i

/-- The fields of a packed byte. -/
theorem EncodeFields.packByte_fields (g : Guard) (major hi lo : Pair) :
    guardField (packByte g major hi lo) = g ∧ majorField (packByte g major hi lo) = major := by
  obtain ⟨p, c⟩ := g
  cases p <;> cases c <;> revert major hi lo <;> decide

theorem EncodeFields.immd (g : Guard) (n : Nibble) : EncodeFields.Statement (.immd g n) :=
  EncodeFields.packByte_fields ..
theorem EncodeFields.load (g : Guard) : EncodeFields.Statement (.load g) :=
  EncodeFields.packByte_fields ..
theorem EncodeFields.nop (g : Guard) : EncodeFields.Statement (.nop g) :=
  EncodeFields.packByte_fields ..
theorem EncodeFields.nop2 (g : Guard) : EncodeFields.Statement (.nop2 g) :=
  EncodeFields.packByte_fields ..
theorem EncodeFields.halt (g : Guard) : EncodeFields.Statement (.halt g) :=
  EncodeFields.packByte_fields ..
theorem EncodeFields.mix (g : Guard) (r : Sel) : EncodeFields.Statement (.mix g r) :=
  EncodeFields.packByte_fields ..
theorem EncodeFields.inc (g : Guard) (r : Sel) : EncodeFields.Statement (.inc g r) :=
  EncodeFields.packByte_fields ..
theorem EncodeFields.dec (g : Guard) (r : Sel) : EncodeFields.Statement (.dec g r) :=
  EncodeFields.packByte_fields ..
theorem EncodeFields.bit (g : Guard) (base arg : Sel) :
    EncodeFields.Statement (.bit g base arg) :=
  EncodeFields.packByte_fields ..
theorem EncodeFields.setbp (g : Guard) : EncodeFields.Statement (.setbp g) :=
  EncodeFields.packByte_fields ..
theorem EncodeFields.onto (g : Guard) (base arg : Sel) :
    EncodeFields.Statement (.onto g base arg) :=
  EncodeFields.packByte_fields ..
theorem EncodeFields.setbip (g : Guard) : EncodeFields.Statement (.setbip g) :=
  EncodeFields.packByte_fields ..

end Sys2Proof.Laws
end

