-- ==== Sys2Proof/Tests/Slice0.lean ====
section
/-!
SUPPORT. Tests of the model. Expected values come from the spec: V<n> is a single-step vector of
spec/95_test_vectors.md, S<n> one of its source examples; decoded words are written from the format
table of 30_encoding R52.
-/
namespace Sys2Proof.Tests

open Sys2Proof Sys2Proof.Machine

/-- The state after one step that runs the instruction byte `ib` from `s`. -/
def after (ib : Nat) (s : State) : Option State :=
  match step (s.withFetchWord 8 ib) with
  | .next t => some t
  | .fault _ => none
  | .refused _ => none

/-- A field or a tuple of fields after one step. -/
def observe {α : Type} (ib : Nat) (s : State) (f : State → α) : Option α := (after ib s).map f

/-- The reset state with the byte `m` in the cell `0x01:0x20`, which `[P]` denotes. -/
def dataState (m : Byte) : State :=
  { State.reset with P := 0x20#8, bank_P := 0x01#8, mem := [(0x0120, m)] }

/-- The reset state with the other values of LOAD_I_MODE and BIT_INDEX_ORDER. -/
def altState : State :=
  { State.reset with cfg := ⟨.flat, .bypass, .argMsb⟩ }

/-- The byte at a global address. -/
def byteAt (bank addr : Byte) (s : State) : Byte := s.memRead bank addr

/-! ### Well-formedness: an ill-formed term for each check -/

theorem test_wf_refuses_bit_mem_mem : Instr.wf (.bit ⟨false, false⟩ .mem .mem) = false := by decide
theorem test_wf_refuses_onto_mem_mem : Instr.wf (.onto ⟨true, true⟩ .mem .mem) = false := by decide
theorem test_wf_accepts_neighbours :
    Instr.wf (.bit ⟨false, false⟩ .mem .p) = true ∧ Instr.wf (.onto ⟨false, false⟩ .p .mem) = true := by
  decide

/-! ### Decoding: words written out from R52, every constructor -/

theorem test_decode_immd : decode 0b1_1_00_1010#8 = .immd ⟨true, true⟩ 0b1010#4 := by decide
theorem test_decode_load : decode 0b0_1_01_00_00#8 = .load ⟨false, true⟩ := by decide
theorem test_decode_nop : decode 0b1_1_01_00_01#8 = .nop ⟨true, true⟩ := by decide
theorem test_decode_nop2 : decode 0b1_0_01_00_10#8 = .nop2 ⟨true, false⟩ := by decide
theorem test_decode_halt : decode 0b1_0_01_00_11#8 = .halt ⟨true, false⟩ := by decide
theorem test_decode_mix : decode 0b0_1_01_01_10#8 = .mix ⟨false, true⟩ .p := by decide
theorem test_decode_inc : decode 0b1_0_01_10_01#8 = .inc ⟨true, false⟩ .ip := by decide
theorem test_decode_dec : decode 0b0_1_01_11_11#8 = .dec ⟨false, true⟩ .mem := by decide
theorem test_decode_bit : decode 0b0_0_10_01_00#8 = .bit ⟨false, false⟩ .ip .a := by decide
theorem test_decode_setbp : decode 0b1_0_10_11_11#8 = .setbp ⟨true, false⟩ := by decide
theorem test_decode_onto : decode 0b0_1_11_11_10#8 = .onto ⟨false, true⟩ .mem .p := by decide
theorem test_decode_setbip : decode 0b0_1_11_11_11#8 = .setbip ⟨false, true⟩ := by decide
theorem test_decode_table_word :
    decodeTableWord 8 0x13 = some (.halt ⟨false, false⟩) ∧ decodeTableWord 16 0x13 = none := by
  decide

/-! ### Assembly (30_encoding R59, R60, R62) -/

theorem test_assemble_halt_both_prefixes :
    assemble [.plus, .bang, .word .halt] = some 0xD3#8 := by decide
theorem test_assemble_refuses_wide_nibble : assemble [.word .immd, .num 16] = none := by decide

/-! ### Single steps, from the vectors of spec/95_test_vectors.md -/

/-- V4: a skipped `immd` still lets its nibble in. -/
theorem test_immd_skipped : observe 0x05 { State.reset with condition := true, I := 0x30#8 }
    (fun t => (t.I, t.condition, t.IP)) = some (0x05#8, true, 0x01#8) := by decide
/-- V7: `IP` wraps in the bank. -/
theorem test_immd_wraps : observe 0x00 { State.reset with I := 0x12#8, IP := 0xFF#8, bank_IP := 0x03#8 }
    (fun t => (t.IP, t.bank_IP, t.I)) = some (0x00#8, 0x03#8, 0x20#8) := by decide
/-- V25: AND with a condition descriptor. -/
theorem test_bit_and_condition : observe 0x62 { State.reset with I := 0xB8#8, A := 0xCC#8, P := 0xAA#8 }
    (fun t => (t.A, t.condition, t.I)) = some (0x88#8, true, 0x80#8) := by decide
/-- V14, its note: under `arg_msb` the result is 0x44. -/
theorem test_bit_arg_msb : observe 0x22 { altState with I := 0x02#8, A := 0xCC#8, P := 0xAA#8 }
    (fun t => t.A) = some 0x44#8 := by decide
/-- V40: `onto IP IP` wraps, carries and suppresses the advance. -/
theorem test_onto_ip : observe 0x75 { State.reset with I := 0x01#8, IP := 0x90#8 }
    (fun t => (t.IP, t.condition)) = some (0x21#8, true) := by decide
/-- V31, the source's example as corrected by C1. -/
theorem test_onto_single_carry : observe 0x70 { State.reset with I := 0x01#8, A := 0xFF#8 }
    (fun t => (t.A, t.condition)) = some (0xFF#8, true) := by decide
/-- V50: the cell `[P]` is untouched. -/
theorem test_setbp : observe 0x2F { State.reset with I := 0x01#8, P := 0x10#8 }
    (fun t => (t.bank_P, t.I, byteAt 0x00#8 0x10#8 t)) = some (0x01#8, 0x10#8, 0x00#8) := by decide
/-- V53: sets the bank and clears the condition. -/
theorem test_setbip :
    observe 0xFF { State.reset with condition := true, I := 0xAB#8, IP := 0x20#8 }
    (fun t => (t.bank_IP, t.IP, t.condition)) = some (0xAB#8, 0x21#8, false) := by decide
/-- V61: a jump relative to its own address. -/
theorem test_inc_ip : observe 0x19 { State.reset with I := 0x05#8, IP := 0x10#8 }
    (fun t => t.IP) = some 0x15#8 := by decide
/-- V63: read, add, write back to memory, carry. -/
theorem test_inc_mem : observe 0x5B { dataState 0xFF#8 with I := 0x01#8 }
    (fun t => (byteAt 0x01#8 0x20#8 t, t.condition, t.P)) = some (0x00#8, true, 0x20#8) := by decide
/-- V66: the borrow. -/
theorem test_dec_borrow : observe 0x5C { State.reset with I := 0x01#8 }
    (fun t => (t.A, t.condition)) = some (0xFF#8, true) := by decide
/-- V71: `dec [P]`. -/
theorem test_dec_mem : observe 0x1F { dataState 0x10#8 with I := 0x02#8 }
    (byteAt 0x01#8 0x20#8) = some 0x0E#8 := by decide
/-- V72: the nibble swap. -/
theorem test_mix_swap : observe 0x14 { State.reset with I := 0x4E#8, A := 0xB4#8 }
    (fun t => (t.A, t.IP)) = some (0x4B#8, 0x01#8) := by decide
/-- V79: rotate left by two. -/
theorem test_mix_rotate : observe 0x14 { State.reset with I := 0x93#8, A := 0x81#8 }
    (fun t => t.A) = some 0x06#8 := by decide
/-- V81: the default LOAD_I_MODE. -/
theorem test_load_shifted : observe 0x50 { State.reset with I := 0x77#8, A := 0x3C#8 }
    (fun t => (t.I, t.condition, t.A)) = some (0xC0#8, true, 0x3C#8) := by decide
/-- V81, its note: under `bypass`. -/
theorem test_load_bypass : observe 0x50 { altState with I := 0x77#8, A := 0x3C#8 }
    (fun t => t.I) = some 0x3C#8 := by decide
/-- V85: `+!nop` clears the condition. -/
theorem test_nop : observe 0xD1 { State.reset with condition := true, I := 0x12#8 }
    (fun t => (t.condition, t.I, t.IP)) = some (false, 0x20#8, 0x01#8) := by decide
/-- V87: `nop2`. -/
theorem test_nop2 : observe 0x12 { State.reset with I := 0x0F#8 }
    (fun t => (t.I, t.halted)) = some (0xF0#8, false) := by decide
/-- V91: halted, and the condition cleared (C2). -/
theorem test_halt_commit : observe 0xD3 { State.reset with condition := true, IP := 0x03#8 }
    (fun t => (t.halted, t.condition, t.IP)) = some (true, false, 0x04#8) := by decide
/-- V90: a skipped halt reports nothing. -/
theorem test_halt_skipped : observe 0x93 { State.reset with IP := 0x03#8 }
    (fun t => (t.halted, t.IP)) = some (false, 0x04#8) := by decide
/-- The branch-free form on V63 (spec/95, S1). -/
theorem test_step_hw_inc_mem :
    after 0x5B { dataState 0xFF#8 with I := 0x01#8 } =
      some (stepHw (({ dataState 0xFF#8 with I := 0x01#8 } : State).withFetchWord 8 0x5B)) := by decide
/-- A write of the byte that stands there already (`inc [P]` with `I` 0) is a write in both forms. -/
theorem test_same_byte_write :
    let s := (dataState 0xFF#8).withFetchWord 8 0x1B
    stepStore s = some ⟨0x0120#16, 0xFF#8⟩ ∧ stepHwStore s = some ⟨0x0120#16, 0xFF#8⟩ := by decide
/-- A skipped store is none in both forms (40_step R75). -/
theorem test_skipped_write :
    let s := (dataState 0xFF#8).withFetchWord 8 0x9B
    stepStore s = none ∧ stepHwStore s = none := by decide
/-- The host's view after V81: the registers as the vector's end state has them. -/
theorem test_observe_registers :
    observe 0x50 { State.reset with I := 0x77#8, A := 0x3C#8 } State.registers =
      some ⟨true, 0xC0#8, 0x3C#8, 0x01#8, 0x00#8, 0x00#8, 0x00#8⟩ := by decide
/-- 20_memory R33: with the null memory the fetch gives 0x00, `immd 0`. -/
theorem test_null_memory : fetch { State.reset with cfg := ⟨.null, .shifted, .baseMsb⟩,
                                                    mem := [(0, 0x13#8)] } = 0x00#8 := by decide

/-! ### Witnesses: a state and operands that meet each statement's hypotheses -/

/-- The hypotheses of a statement about an executed instruction, at both values of the predicate. -/
theorem witness_executed :
    State.reset.wf ∧ (⟨false, true⟩ : Guard).predicate = State.reset.condition ∧
    (⟨true, true⟩ : Guard).predicate = { State.reset with condition := true }.condition := by decide
/-- A skipped instruction: `SkippedInstruction`, `HaltEffect`, `CommitRule`. -/
theorem witness_skipped : (Instr.load ⟨true, true⟩).guard.predicate ≠ State.reset.condition ∧
    (Instr.immd ⟨true, true⟩ 0xF#4).guard.predicate ≠ State.reset.condition := by decide
/-- `CommitRule`: executed with the commit bit set and clear. -/
theorem witness_commit :
    (Instr.load ⟨false, true⟩).guard.predicate = State.reset.condition ∧
    (Instr.load ⟨false, true⟩).guard.commit = true ∧
    (Instr.load ⟨false, false⟩).guard.commit = false := by decide
/-- `CommitRule`, last clause: after a committed `load` the zero byte at the next address is
skipped. -/
theorem witness_commit_next : ∃ t u, exec (.load ⟨false, true⟩) State.reset = .next t ∧
    step t = .next u ∧ (decode (fetch t)).guard.predicate ≠ t.condition :=
  ⟨_, _, rfl, rfl, by decide⟩
/-- `RomImageLoads`: an image that fits, one of the greatest length, one too long. -/
theorem witness_rom : [0x13#8].length ≤ 65536 ∧ (List.replicate 65536 0x13#8).length ≤ 65536 ∧
    65536 < (List.replicate 65537 0x13#8).length :=
  ⟨by decide, Nat.le_of_eq List.length_replicate, by rw [List.length_replicate]; omega⟩
/-- `RomImageLoads`: both memory kinds. -/
theorem witness_mem_kinds : (⟨.flat, .shifted, .baseMsb⟩ : Config).memKind = .flat ∧
    (⟨.null, .shifted, .baseMsb⟩ : Config).memKind = .null := by decide
/-- `PowerOnState`. -/
theorem witness_power_on : ∃ t, powerOn defaultConfig [0x13#8] = .next t := ⟨_, rfl⟩
/-- `GlobalAddressUnique`. -/
theorem witness_global_addr : globalAddr 0xFF#8 0xFF#8 = globalAddr 0xFF#8 0xFF#8 := rfl
/-- `FlatWriteThenRead`: the last address, and another one. -/
theorem witness_flat : State.reset.wf ∧ State.reset.cfg.memKind = .flat ∧
    ¬((0xFF#8 : Byte) = 0xFF#8 ∧ (0xFE#8 : Byte) = 0xFF#8) := by decide
/-- `NullMemoryDiscardsWrites`. -/
theorem witness_null : { State.reset with cfg := ⟨.null, .bypass, .argMsb⟩ }.cfg.memKind = .null := by
  decide
/-- `DecodeEncode`, `PlacedInstructionRuns`. -/
theorem witness_wf_instr : (Instr.onto ⟨true, true⟩ .mem .p).wf = true ∧ State.reset.wf := by decide
/-- `AssembleRenderedLine`. -/
theorem witness_unsigned : (Instr.inc ⟨false, true⟩ .mem).guard.predicate = false := by decide
/-- `StepRunsDecoded`. -/
theorem witness_fetched :
    let s : State := { State.reset with mem := [(0, 0x13#8)] }
    (Instr.halt ⟨false, false⟩).wf = true ∧
      s.memRead s.bank_IP s.IP = encode (.halt ⟨false, false⟩) := by decide
/-- `HaltedOutput`: a step that halts. -/
theorem witness_halting : ∃ t, step { State.reset with mem := [(0, 0x13#8)] } = .next t ∧
    t.halted = true := ⟨_, rfl, rfl⟩
/-- `AdvanceUnlessWritten`: a skipped write to `IP`, and an executed write elsewhere. -/
theorem witness_advance :
    ¬((Instr.inc ⟨true, false⟩ .ip).guard.predicate = State.reset.condition ∧
      writesIP (.inc ⟨true, false⟩ .ip) = true) ∧
    ¬((Instr.inc ⟨false, false⟩ .p).guard.predicate = State.reset.condition ∧
      writesIP (.inc ⟨false, false⟩ .p) = true) := by decide
/-- `ImmediateShifts`: an executed `immd`, and a skipped `load`. -/
theorem witness_shifts :
    ¬((Instr.immd ⟨false, false⟩ 0x1#4).guard.predicate = State.reset.condition ∧
      ∃ g, Instr.immd ⟨false, false⟩ 0x1#4 = .load g) ∧
    ¬((Instr.load ⟨true, false⟩).guard.predicate = State.reset.condition ∧
      ∃ g, Instr.load ⟨true, false⟩ = .load g) :=
  ⟨fun ⟨_, _, hg⟩ => Instr.noConfusion hg, fun h => absurd h.1 (by decide)⟩
/-- `BankRegistersChange`, `SetbipEffect`: a step that changes `bank_IP`, at the last offset. -/
theorem witness_bank_ip : ∃ t,
    step { State.reset with I := 0x07#8, IP := 0xFF#8, mem := [(0x00FF, 0x3F#8)] } = .next t ∧
    t.bank_IP ≠ State.reset.bank_IP := ⟨_, rfl, by decide⟩
/-- `BankRegistersChange`: a step that changes `bank_P`. -/
theorem witness_bank_p : ∃ t,
    step { State.reset with I := 0xFF#8, mem := [(0, 0x2F#8)] } = .next t ∧
    t.bank_P ≠ State.reset.bank_P := ⟨_, rfl, by decide⟩
/-- `SetbipEffect`, third clause. -/
theorem witness_setbip : (⟨false, false⟩ : Guard).predicate = State.reset.condition ∧
    ∃ t, exec (.setbip ⟨false, false⟩) State.reset = .next t := ⟨rfl, _, rfl⟩
/-- `ImmdAfterOther`: a `load` under `shifted`, and a no-op under `bypass`. -/
theorem witness_immd_after :
    (∀ g n, Instr.load ⟨false, false⟩ ≠ .immd g n) ∧ State.reset.cfg.loadIMode ≠ .bypass ∧
    (∀ g n, Instr.nop ⟨false, false⟩ ≠ .immd g n) ∧
    ¬∃ g, Instr.nop ⟨false, false⟩ = .load g :=
  ⟨fun _ _ h => Instr.noConfusion h, by decide, fun _ _ h => Instr.noConfusion h,
    fun ⟨_, hg⟩ => Instr.noConfusion hg⟩
/-- `BitEffect`, `OntoEffect`: the pairs next to the bank sets. -/
theorem witness_two_register :
    ¬((Sel.mem : Sel) = .mem ∧ (Sel.p : Sel) = .mem) ∧
    ¬((Sel.p : Sel) = .mem ∧ (Sel.mem : Sel) = .mem) := by decide
/-- `Retired`: the cell stored to, with the memory operand and the flat memory, and one that is
not. -/
theorem witness_stores : StoresTo .mem (dataState 0xFF#8) 0x01#8 0x20#8 ∧
    ¬StoresTo .mem (dataState 0xFF#8) 0x01#8 0x21#8 :=
  ⟨⟨rfl, rfl, rfl, rfl⟩, fun h => absurd h.2.2.2 (by decide)⟩
/-- `BitTruthTables`: every table is some `I`'s. -/
theorem witness_tables : ∀ t : Nibble, ∃ i : Byte, i.extractLsb' 0 4 = t := by decide
/-- `BitIndexOrderSwaps`. -/
theorem witness_symmetric_table : (0x08#8 : Byte).getLsbD 1 = (0x08#8 : Byte).getLsbD 2 := by decide
/-- `StoreSeenByNextFetch`: one of each storing form, the store across the bank's end. -/
theorem witness_store_next :
    let s : State := { State.reset with I := 0x01#8, IP := 0xFF#8, A := 0x13#8 }
    s.wf ∧ s.cfg.memKind = .flat ∧ globalAddr s.bank_IP (s.IP + 1) = dataAddr s ∧
    (⟨false, true⟩ : Guard).predicate = s.condition ∧
    written (.onto ⟨false, true⟩ .mem .a) s = some (.mem, 0x14#8) ∧
    written (.bit ⟨false, true⟩ .mem .ip) s = some (.mem, 0x00#8) ∧
    written (.inc ⟨false, true⟩ .mem) s = some (.mem, 0x01#8) ∧
    written (.dec ⟨false, true⟩ .mem) s = some (.mem, 0xFF#8) ∧
    written (.mix ⟨false, true⟩ .mem) s = some (.mem, 0x00#8) := by decide
/-- `AdvanceUnlessWritten`: the executed set of `bank_IP`, at the bank's end, and a skipped one. -/
theorem witness_advance_bank :
    let s : State := { State.reset with I := 0x07#8, IP := 0xFF#8 }
    writesIP (.setbip ⟨false, false⟩) = false ∧ setsBankIP (.setbip ⟨false, false⟩) = true ∧
    (Instr.setbip ⟨false, false⟩).guard.predicate = s.condition ∧
    (Instr.setbip ⟨true, false⟩).guard.predicate ≠ s.condition := by decide
/-- `StepStoreIsPerformed`: a step with a write (V63's) and one without. -/
theorem witness_step_store :
    stepStore (({ dataState 0xFF#8 with I := 0x01#8 } : State).withFetchWord 8 0x5B) =
      some ⟨0x0120#16, 0x00#8⟩ ∧ stepStore State.reset = none := by decide
/-- `WrittenThroughDestination`: a form that writes a result and one that writes none. -/
theorem witness_written :
    written (.dec ⟨false, false⟩ .p) State.reset = some (.p, 0x00#8) ∧
    written (.onto ⟨false, false⟩ .mem .mem) State.reset = none ∧
    (Instr.dec ⟨false, false⟩ .p).guard.predicate = State.reset.condition ∧
    (Instr.onto ⟨false, false⟩ .mem .mem).guard.predicate = State.reset.condition ∧
    State.reset.wf := by decide
/-- `StepKeepsWellFormed`, `StepKeepsParameters`: a step that stores. -/
theorem witness_step_wf :
    ({ dataState 0xFF#8 with mem := [(0, 0x1B#8), (0x0120, 0xFF#8)] } : State).wf ∧
    ∃ t, step { dataState 0xFF#8 with mem := [(0, 0x1B#8), (0x0120, 0xFF#8)] } = .next t :=
  ⟨by decide, _, rfl⟩
/-- `RunEndIsObserved`: a run that ends. -/
theorem witness_run_ends : ∃ t, RunEnds { State.reset with mem := [(0, 0x13#8)] } t :=
  ⟨_, .last rfl rfl⟩
/-- `ZeroBankNeverEnds`: the reset state. -/
theorem witness_zero_bank : ∀ addr : Byte, State.reset.memRead State.reset.bank_IP addr = 0x00#8 :=
  fun _ => rfl
/-- `HaltPairEndsRun`, with the condition at 1 and the pair across the bank's end. -/
theorem witness_halt_pair :
    let s : State := { State.reset with condition := true, IP := 0xFF#8, mem := [(0, 0x93#8), (0xFF, 0x13#8)] }
    s.memRead s.bank_IP s.IP = 0x13#8 ∧ s.memRead s.bank_IP (s.IP + 1) = 0x93#8 := by decide

end Sys2Proof.Tests
end

/-!
PROOFS. The statements of 20_memory: the memory that `powerOn` leaves for the first step.
-/
namespace Sys2Proof.Machine

/-- The global address puts the bank in the high byte (20_memory R30). -/
theorem globalAddr_toNat (bank addr : Byte) :
    (globalAddr bank addr).toNat = 256 * bank.toNat + addr.toNat := by
  rw [globalAddr, BitVec.toNat_append, ← Nat.shiftLeft_add_eq_or_of_lt addr.isLt,
    Nat.shiftLeft_eq, Nat.mul_comm]

/-- Every one of the 65536 addresses is that of its quotient and remainder by 256 (20_memory R34's
`(k >> 8):(k & 0xFF)`). -/
theorem globalAddr_div_mod {k : Nat} (hk : k < 65536) :
    (globalAddr (BitVec.ofNat 8 (k / 256)) (BitVec.ofNat 8 (k % 256))).toNat = k := by
  rw [globalAddr_toNat, BitVec.toNat_ofNat, BitVec.toNat_ofNat]
  omega

/-- With the flat memory attached, `memRead` reads the memory's contents at the global address. -/
theorem State.memRead_of_flat {s : State} (hs : s.cfg.memKind = .flat) (bank addr : Byte) :
    s.memRead bank addr = Memory.read s.mem (globalAddr bank addr).toNat := by
  rw [State.memRead, hs]

/-- An image of at most 65536 bytes is loaded under the reset registers. -/
theorem powerOn_of_length_le {rom : List Byte} (cfg : Config) (h : rom.length ≤ 65536) :
    powerOn cfg rom =
      .next { State.reset with cfg := cfg, mem := loadedMemory cfg.memKind rom } :=
  if_pos h

/-- A longer image is refused (20_memory R34). -/
theorem powerOn_of_length_gt {rom : List Byte} (cfg : Config) (h : 65536 < rom.length) :
    powerOn cfg rom = .refused .romImageTooLong :=
  if_neg (Nat.not_le.mpr h)

/-- The byte that the loaded flat memory holds at a global address: the image's, and the byte of an
unlisted address after the image's end (20_memory R34). -/
theorem read_loadedMemory_flat {rom : List Byte} (h : rom.length ≤ 65536) (k : Nat) :
    Memory.read (loadedMemory .flat rom) k = rom.getD k Memory.unlisted :=
  read_imageCells (k := 0) (by omega) (Nat.zero_le k)

/-- With the null memory every image that fits powers on as the empty one does (20_memory R34). -/
theorem powerOn_null {cfg : Config} {rom : List Byte} (hcfg : cfg.memKind = .null)
    (h : rom.length ≤ 65536) : powerOn cfg rom = powerOn cfg [] := by
  rw [powerOn_of_length_le cfg h, powerOn_of_length_le cfg (Nat.zero_le _), hcfg]
  rfl

/-- Settles O2: the loaded flat memory holds the image's bytes at their global addresses, the null
memory none of them, and the length test of `powerOn` is R34's. -/
theorem romImageLoads : Obligations.RomImageLoads := by
  intro cfg rom
  refine ⟨fun hlen => ⟨_, powerOn_of_length_le cfg hlen, fun hflat k hk => ?_,
    fun hnull => powerOn_null hnull hlen⟩, powerOn_of_length_gt cfg⟩
  rw [State.memRead_of_flat hflat, globalAddr_div_mod hk, hflat]
  exact read_loadedMemory_flat hlen k

end Sys2Proof.Machine

/-!
PROOFS. The statements of 40_step: what a skipped instruction does, the commit, and the output.
-/
namespace Sys2Proof.Machine

/-! ### `I` after the epilogue (40_step R77) -/

/-- The old low nibble of `I` is its new high nibble. -/
theorem nextI_high (s : State) (n : Nibble) :
    (nextI s n).extractLsb' 4 4 = s.I.extractLsb' 0 4 :=
  BitVec.extractLsb'_append_eq_left

/-- The nibble that enters `I` is its new low nibble. -/
theorem nextI_low (s : State) (n : Nibble) : (nextI s n).extractLsb' 0 4 = n :=
  BitVec.extractLsb'_append_eq_right

/-- Only an `immd` lets a nibble other than 0 in. -/
theorem entering_of_ne_immd {i : Instr} (h : ∀ g n, i ≠ .immd g n) : entering i = 0#4 := by
  cases i with
  | immd g n => exact absurd rfl (h g n)
  | _ => rfl

/-! ### The skipped instruction (40_step R75) -/

/-- The whole next state after a skipped instruction. -/
theorem exec_skipped_eq {i : Instr} {s : State} (h : i.guard.predicate ≠ s.condition) :
    exec i s = .next { s with IP := s.IP + 1, I := nextI s (entering i), halted := false } := by
  rw [exec_skipped i s h, epilogue_eq]

/-- The same of a step, for the fields that the commit rule speaks of. -/
theorem step_of_skipped {t u : State} (hskip : (decode (fetch t)).guard.predicate ≠ t.condition)
    (hu : step t = .next u) : u.condition = t.condition ∧ u.IP = t.IP + 1 := by
  rw [step, exec_skipped_eq hskip] at hu
  cases hu
  exact ⟨rfl, rfl⟩

/-- Settles O18: the next state of a skipped instruction is the epilogue's alone. -/
theorem skippedInstruction : Obligations.SkippedInstruction := by
  intro i s hskip
  refine ⟨_, exec_skipped_eq hskip, rfl, rfl, rfl, rfl, rfl, rfl, rfl, rfl, rfl,
    nextI_high s _, fun hi => ?_⟩
  exact (nextI_low s _).trans (entering_of_ne_immd hi)

/-! ### The condition and the output after each part of a step -/

@[simp] theorem commit_condition (g : Guard) (c : Bool) (s : State) :
    (commit g c s).condition = if g.commit then c else s.condition := by
  rw [commit_eq]; rfl

@[simp] theorem commit_I (g : Guard) (c : Bool) (s : State) : (commit g c s).I = s.I := by
  rw [commit_eq]; rfl

@[simp] theorem commit_IP (g : Guard) (c : Bool) (s : State) : (commit g c s).IP = s.IP := by
  rw [commit_eq]; rfl

@[simp] theorem epilogue_condition (n : Nibble) (s : State) :
    (epilogue n s).condition = s.condition := rfl

@[simp] theorem epilogue_halted (n : Nibble) (s : State) : (epilogue n s).halted = false := rfl

@[simp] theorem epilogue_IP (n : Nibble) (s : State) : (epilogue n s).IP = s.IP + 1 := rfl

@[simp] theorem epilogue_I (n : Nibble) (s : State) : (epilogue n s).I = nextI s n := by
  rw [epilogue_eq]

@[simp] theorem retire_condition (g : Guard) (r : Sel) (v : Byte) (c : Bool) (s : State) :
    (retire g r v c s).condition = if g.commit then c else s.condition := by
  simp [retire_eq]

@[simp] theorem retire_halted (g : Guard) (r : Sel) (v : Byte) (c : Bool) (s : State) :
    (retire g r v c s).halted = false := by
  rw [retire_eq]

@[simp] theorem loadExecuted_condition (g : Guard) (s : State) :
    (loadExecuted g s).condition = if g.commit then !s.condition else s.condition := by
  unfold loadExecuted
  split <;> simp [advanceIP]

@[simp] theorem loadExecuted_halted (g : Guard) (s : State) :
    (loadExecuted g s).halted = false := by
  unfold loadExecuted
  split <;> rfl

@[simp] theorem setBankPFromI_condition (g : Guard) (s : State) :
    (setBankPFromI g s).condition = if g.commit then false else s.condition :=
  commit_condition g false _

@[simp] theorem setBankIPFromI_condition (g : Guard) (s : State) :
    (setBankIPFromI g s).condition = if g.commit then false else s.condition :=
  commit_condition g false _

@[simp] theorem setBankPFromI_halted (g : Guard) (s : State) :
    (setBankPFromI g s).halted = false := rfl

@[simp] theorem setBankIPFromI_halted (g : Guard) (s : State) :
    (setBankIPFromI g s).halted = false := rfl

/-! ### The commit rule (40_step R74) -/

/-- The condition after an executed instruction: computed where its commit bit is set, else kept. -/
theorem executedState_condition (i : Instr) (s : State) :
    (executedState i s).condition =
      if i.guard.commit then computedCondition i s else s.condition := by
  cases i with
  | immd | nop | nop2 | halt => exact commit_condition _ _ _
  | load => exact loadExecuted_condition _ _
  | mix | inc | dec => exact retire_condition _ _ _ _ _
  | setbp | setbip => exact commit_condition _ _ _
  | bit _ base arg | onto _ base arg =>
    cases hb : Sel.bothMem base arg <;>
      simp [executedState, computedCondition, hb, bitExecuted, ontoExecuted, Instr.guard]

/-- Settles O19: an executed instruction commits by `executedState_condition`, a skipped one keeps
the condition, and the next step tests its predicate against what stands there. -/
theorem commitRule : Obligations.CommitRule := by
  intro i s
  by_cases h : i.guard.predicate = s.condition
  · refine ⟨_, exec_executed i s h, fun _ hc => ?_, fun _ hc => ?_, fun hn => absurd h hn,
      fun u hu hskip => step_of_skipped hskip hu⟩
    · rw [executedState_condition, if_pos hc]
    · rw [executedState_condition, hc, if_neg Bool.false_ne_true]
  · exact ⟨_, exec_skipped_eq h, fun he => absurd he h, fun he => absurd he h, fun _ => rfl,
      fun u hu hskip => step_of_skipped hskip hu⟩

/-! ### Which byte is `halt` (40_step R78) -/

/-- The decoder takes the guard from bits 7 and 6 (30_encoding R51). -/
theorem decode_guard (ib : Byte) : (decode ib).guard = guardField ib := by
  revert ib
  decide

/-- The low six bits of a byte say whether it is a `halt` (30_encoding R52). -/
theorem decode_mnemonic_eq_halt_iff (ib : Byte) :
    (decode ib).mnemonic = .halt ↔ ib.extractLsb' 0 6 = 0b010011#6 := by
  revert ib
  decide

/-- The output of an executed instruction is 1 for `halt` only. -/
theorem executedState_halted (i : Instr) (s : State) :
    (executedState i s).halted = true ↔ i.mnemonic = .halt := by
  cases i with
  | halt => exact iff_of_true rfl rfl
  | immd | nop | nop2 | setbp | setbip => exact iff_of_false Bool.false_ne_true nofun
  | load | mix | inc | dec => simp [executedState, Instr.mnemonic]
  | bit _ base arg | onto _ base arg =>
    cases hb : Sel.bothMem base arg <;>
      simp [executedState, Instr.mnemonic, hb, bitExecuted, ontoExecuted]

/-- The epilogue runs in an executed `halt` too (40_step R76, R77). -/
theorem executedState_halt_epilogue {i : Instr} (s : State) (h : i.mnemonic = .halt) :
    (executedState i s).IP = s.IP + 1 ∧ (executedState i s).I = nextI s 0#4 := by
  cases i with
  | halt g => simp [executedState, nextI]
  | _ => cases h

/-- The output of a step, and the epilogue of a step whose output is 1. -/
theorem exec_halted (i : Instr) (s : State) : ∃ t, exec i s = .next t ∧
    (t.halted = true ↔ i.mnemonic = .halt ∧ i.guard.predicate = s.condition) ∧
    (t.halted = true → t.IP = s.IP + 1 ∧ t.I = nextI s 0#4) := by
  by_cases h : i.guard.predicate = s.condition
  · refine ⟨_, exec_executed i s h, ?_, fun hh => ?_⟩
    · rw [executedState_halted, and_iff_left h]
    · exact executedState_halt_epilogue s ((executedState_halted i s).mp hh)
  · exact ⟨_, exec_skipped_eq h, iff_of_false Bool.false_ne_true fun hh => h hh.2, nofun⟩

/-! ### No step reads the output (10_state R21, log 1) -/

section

variable (s : State) (b : Bool)

@[simp] theorem readSel_setHalted (r : Sel) : readSel (s.setHalted b) r = readSel s r := by
  cases r <;> rfl

theorem commit_setHalted (g : Guard) (c : Bool) :
    commit g c (s.setHalted b) = (commit g c s).setHalted b := by
  rw [commit_eq, commit_eq]; rfl

theorem epilogue_setHalted (n : Nibble) : epilogue n (s.setHalted b) = epilogue n s := rfl

@[simp] theorem epilogue_commit_setHalted (n : Nibble) (g : Guard) (c : Bool) :
    epilogue n (commit g c (s.setHalted b)) = epilogue n (commit g c s) := by
  rw [commit_setHalted, epilogue_setHalted]

@[simp] theorem memWrite_setHalted (bank addr v : Byte) :
    (s.setHalted b).memWrite bank addr v = (s.memWrite bank addr v).setHalted b := by
  unfold State.memWrite
  rw [State.setHalted_cfg]
  split <;> rfl

@[simp] theorem writeSel_setHalted (r : Sel) (v : Byte) :
    writeSel r v (s.setHalted b) = (writeSel r v s).setHalted b := by
  cases r with
  | mem => exact memWrite_setHalted s b _ _ v
  | _ => rfl

@[simp] theorem retire_setHalted (g : Guard) (r : Sel) (v : Byte) (c : Bool) :
    retire g r v c (s.setHalted b) = retire g r v c s := by
  rw [retire_eq, retire_eq, writeSel_setHalted]
  rfl

@[simp] theorem loadExecuted_setHalted (g : Guard) :
    loadExecuted g (s.setHalted b) = loadExecuted g s := by
  have h : commit g (!s.condition) ((s.setHalted b).setI s.A) =
      (commit g (!s.condition) (s.setI s.A)).setHalted b := commit_setHalted (s.setI s.A) b g _
  simp only [loadExecuted, State.setHalted_condition, State.setHalted_A, State.setHalted_cfg, h]
  split <;> rfl

@[simp] theorem setBankPFromI_setHalted (g : Guard) :
    setBankPFromI g (s.setHalted b) = setBankPFromI g s :=
  epilogue_commit_setHalted (s.setBankP s.I) b 0#4 g false

@[simp] theorem setBankIPFromI_setHalted (g : Guard) :
    setBankIPFromI g (s.setHalted b) = setBankIPFromI g s :=
  epilogue_commit_setHalted (s.setBankIP s.I) b 0#4 g false

/-- An executed instruction's next state does not depend on the output of the step before. -/
theorem executedState_setHalted (i : Instr) :
    executedState i (s.setHalted b) = executedState i s := by
  cases i with
  | immd | nop | nop2 => exact epilogue_commit_setHalted _ _ _ _ _
  | halt g => exact congrArg (State.setHalted true) (epilogue_commit_setHalted s b _ g _)
  | load g => exact loadExecuted_setHalted s b g
  | setbp g => exact setBankPFromI_setHalted s b g
  | setbip g => exact setBankIPFromI_setHalted s b g
  | mix | inc | dec => simp [executedState]
  | bit => simp [executedState, bitExecuted]
  | onto => simp [executedState, ontoExecuted]

/-- No instruction's meaning depends on the output of the step before. -/
theorem exec_setHalted (i : Instr) : exec i (s.setHalted b) = exec i s := by
  rw [exec_eq, exec_eq, executedState_setHalted, epilogue_setHalted]
  rfl

/-- No step depends on the output of the step before. -/
theorem step_setHalted : step (s.setHalted b) = step s :=
  exec_setHalted s b (decode (fetch s))

end

/-- Settles O20: the byte's fields decide the output (`exec_halted`), and no step reads it
(`step_setHalted`). -/
theorem haltedOutput : Obligations.HaltedOutput := by
  intro s
  refine ⟨?_, step_setHalted s⟩
  have hstep := exec_halted (decode (fetch s)) s
  rw [decode_mnemonic_eq_halt_iff, decode_guard] at hstep
  exact hstep

end Sys2Proof.Machine

/-!
PROOFS. The statements of 44_bankset: the bank sets' bytes and effects, and that no instruction but
`setbip` changes `bank_IP`.
-/
namespace Sys2Proof.Machine

/-! ### The bank sets: their bytes and their executed states -/

/-- The four bytes of `bit [P] [P]` (44_bankset R105). -/
theorem decode_setbp (p c : Bool) :
    decode (BitVec.ofBool p ++ BitVec.ofBool c ++ 0b101111#6) = .setbp ⟨p, c⟩ := by
  revert p c
  decide

/-- The four bytes of `onto [P] [P]` (44_bankset R106). -/
theorem decode_setbip (p c : Bool) :
    decode (BitVec.ofBool p ++ BitVec.ofBool c ++ 0b111111#6) = .setbip ⟨p, c⟩ := by
  revert p c
  decide

/-- The commit and the epilogue as one update (40_step R74, R76 to R78). -/
theorem epilogue_commit_eq (n : Nibble) (g : Guard) (c : Bool) (s : State) :
    epilogue n (commit g c s) = { s with
      condition := if g.commit then c else s.condition
      I := nextI s n
      IP := s.IP + 1
      halted := false } := by
  rw [epilogue_eq, commit_eq]
  rfl

/-- An executed `bit [P] [P]` as one update (44_bankset R105). -/
theorem setBankPFromI_eq (g : Guard) (s : State) :
    setBankPFromI g s = { s with
      bank_P := s.I
      condition := if g.commit then false else s.condition
      I := nextI s 0#4
      IP := s.IP + 1
      halted := false } :=
  epilogue_commit_eq 0#4 g false (s.setBankP s.I)

/-- An executed `onto [P] [P]` as one update (44_bankset R106). -/
theorem setBankIPFromI_eq (g : Guard) (s : State) :
    setBankIPFromI g s = { s with
      bank_IP := s.I
      condition := if g.commit then false else s.condition
      I := nextI s 0#4
      IP := s.IP + 1
      halted := false } :=
  epilogue_commit_eq 0#4 g false (s.setBankIP s.I)

/-- The next fetch after an executed `onto [P] [P]`: the new bank, the advanced `IP`, the same
memory (44_bankset R106). -/
theorem fetch_setBankIPFromI (g : Guard) (s : State) :
    fetch (setBankIPFromI g s) = s.memRead s.I (s.IP + 1) := by
  rw [setBankIPFromI_eq]
  rfl

/-- Settles O31: the decoder's four bytes, and the executed state as one update. -/
theorem setbpEffect : Obligations.SetbpEffect := by
  refine ⟨decode_setbp, fun g s h => ?_⟩
  rw [exec_executed (.setbp g) s h]
  exact congrArg _ (setBankPFromI_eq g s)

/-! ### `bank_IP` after each part of a step -/

@[simp] theorem commit_bank_IP (g : Guard) (c : Bool) (s : State) :
    (commit g c s).bank_IP = s.bank_IP := by
  rw [commit_eq]; rfl

@[simp] theorem epilogue_bank_IP (n : Nibble) (s : State) :
    (epilogue n s).bank_IP = s.bank_IP := rfl

@[simp] theorem retire_bank_IP (g : Guard) (r : Sel) (v : Byte) (c : Bool) (s : State) :
    (retire g r v c s).bank_IP = s.bank_IP := by
  simp [retire_eq]

@[simp] theorem loadExecuted_bank_IP (g : Guard) (s : State) :
    (loadExecuted g s).bank_IP = s.bank_IP := by
  unfold loadExecuted
  split <;> simp [advanceIP]

@[simp] theorem setBankPFromI_bank_IP (g : Guard) (s : State) :
    (setBankPFromI g s).bank_IP = s.bank_IP := by
  rw [setBankPFromI_eq]

@[simp] theorem setBankIPFromI_bank_IP (g : Guard) (s : State) :
    (setBankIPFromI g s).bank_IP = s.I := by
  rw [setBankIPFromI_eq]

/-- `bank_IP` after an executed instruction: `I` for the set of `bank_IP`, else kept. -/
theorem executedState_bank_IP (i : Instr) (s : State) :
    (executedState i s).bank_IP = if setsBankIP i then s.I else s.bank_IP := by
  cases i with
  | immd | nop | nop2 | halt => exact commit_bank_IP _ _ _
  | load => exact loadExecuted_bank_IP _ _
  | mix | inc | dec => exact retire_bank_IP _ _ _ _ _
  | setbp => exact setBankPFromI_bank_IP _ _
  | setbip => exact setBankIPFromI_bank_IP _ _
  | bit _ base arg | onto _ base arg =>
    cases hb : Sel.bothMem base arg <;>
      simp [executedState, setsBankIP, hb, bitExecuted, ontoExecuted]

/-- `bank_IP` after any instruction: only an executed set of `bank_IP` changes it. -/
theorem exec_bank_IP {i : Instr} {s t : State} (h : exec i s = .next t) :
    t.bank_IP =
      if i.guard.predicate = s.condition ∧ setsBankIP i = true then s.I else s.bank_IP := by
  by_cases hp : i.guard.predicate = s.condition
  · rw [exec_executed i s hp] at h
    cases h
    simp [executedState_bank_IP, hp]
  · rw [exec_skipped i s hp] at h
    cases h
    simp [hp]

/-! ### No other instruction changes `bank_IP` (44_bankset R106) -/

/-- The decoder yields no ill-formed `bit` or `onto` (30_encoding R56, R57). -/
theorem decode_wf (ib : Byte) : (decode ib).wf = true := by
  revert ib
  decide

/-- The only well-formed instruction that sets `bank_IP` is `setbip`. -/
theorem eq_setbip_of_setsBankIP {i : Instr} (hwf : i.wf = true) (hset : setsBankIP i = true) :
    ∃ g, i = .setbip g := by
  cases i with
  | setbip g => exact ⟨g, rfl⟩
  | onto g base arg =>
    have hb : Sel.bothMem base arg = true := hset
    simp [Instr.wf, hb] at hwf
  | _ => cases hset

/-- A step that changes `bank_IP` runs a `setbip`. -/
theorem decode_eq_setbip_of_bank_IP_ne {s t : State} (h : step s = .next t)
    (hne : t.bank_IP ≠ s.bank_IP) : ∃ g, decode (fetch s) = .setbip g := by
  refine eq_setbip_of_setsBankIP (decode_wf _) ?_
  by_contra hset
  exact hne ((exec_bank_IP h).trans (if_neg fun hp => hset hp.2))

/-- Settles O32: the decoder's four bytes, the executed state as one update, the fetch that follows
it, and `decode_eq_setbip_of_bank_IP_ne` for the frame. -/
theorem setbipEffect : Obligations.SetbipEffect := by
  refine ⟨decode_setbip, fun g s h => ?_, fun g s t h ht => ?_,
    fun s t => decode_eq_setbip_of_bank_IP_ne⟩
  · rw [exec_executed (.setbip g) s h]
    exact congrArg _ (setBankIPFromI_eq g s)
  · rw [exec_executed (.setbip g) s h] at ht
    cases ht
    exact fetch_setBankIPFromI g s

end Sys2Proof.Machine

/-!
PROOFS. The statements of 46_load_nop_halt about `nop` and `halt`: their bytes and effects, and the
pair of `halt`s of both predicates.
-/
namespace Sys2Proof.Machine

/-! ### `nop` (46_load_nop_halt R121) -/

/-- The four bytes of `nop` (46_load_nop_halt R121). -/
theorem decode_nop (p c : Bool) :
    decode (BitVec.ofBool p ++ BitVec.ofBool c ++ 0b010001#6) = .nop ⟨p, c⟩ := by
  revert p c
  decide

/-- Settles O28: the decoder's four bytes, and the commit and the epilogue as one update. -/
theorem nopEffect : Obligations.NopEffect := by
  refine ⟨decode_nop, fun g s h => ?_⟩
  rw [exec_executed (.nop g) s h]
  exact congrArg _ (epilogue_commit_eq 0#4 g false s)

/-! ### `halt` (46_load_nop_halt R123) -/

/-- The four bytes of `halt` (46_load_nop_halt R123). -/
theorem decode_halt (p c : Bool) :
    decode (BitVec.ofBool p ++ BitVec.ofBool c ++ 0b010011#6) = .halt ⟨p, c⟩ := by
  revert p c
  decide

/-- An executed `halt`: the commit, the epilogue and the output 1 as one update. -/
theorem exec_halt_executed {g : Guard} {s : State} (h : g.predicate = s.condition) :
    exec (.halt g) s = .next { s with
      condition := if g.commit then false else s.condition
      I := nextI s 0#4
      IP := s.IP + 1
      halted := true } := by
  rw [exec_executed (.halt g) s h, executedState, epilogue_commit_eq]
  rfl

/-- A `halt` without the commit bit keeps the condition, and its output says whether its predicate
matched. -/
theorem exec_halt_uncommitted (p : Bool) (s : State) :
    ∃ t, exec (.halt ⟨p, false⟩) s = .next t ∧
      t.condition = s.condition ∧ t.halted = (p == s.condition) := by
  by_cases h : p = s.condition
  · exact ⟨_, exec_halt_executed h, rfl, (beq_iff_eq.mpr h).symm⟩
  · exact ⟨_, exec_skipped_eq h, rfl, (beq_eq_false_iff_ne.mpr h).symm⟩

/-- Settles O30. Of the pair, the second `halt` tests the condition that the first one tested, so
their outputs, of opposite predicates, are opposite. -/
theorem haltEffect : Obligations.HaltEffect := by
  refine ⟨decode_halt, fun g s => exec_halt_executed,
    fun g s => exec_skipped_eq (i := .halt g), fun s => ?_⟩
  obtain ⟨t, ht, hcond, hout⟩ := exec_halt_uncommitted false s
  obtain ⟨u, hu, -, hout'⟩ := exec_halt_uncommitted true t
  refine ⟨t, u, ht, hu, ?_⟩
  rw [hout, hout', hcond]
  cases s.condition <;> rfl

end Sys2Proof.Machine

/-!
PROOFS. The statements of 30_encoding: decoding and encoding, and the assembler's line.
-/
namespace Sys2Proof.Machine

/-! ### The fields of a packed byte (30_encoding R51, R52) -/

section

variable (g : Guard) (major hi lo : Pair)

@[simp] theorem guardField_packByte : guardField (packByte g major hi lo) = g :=
  (Laws.EncodeFields.packByte_fields g major hi lo).1

@[simp] theorem majorField_packByte : majorField (packByte g major hi lo) = major :=
  (Laws.EncodeFields.packByte_fields g major hi lo).2

@[simp] theorem lowField_packByte : lowField (packByte g major hi lo) = hi ++ lo := by
  obtain ⟨p, c⟩ := g
  cases p <;> cases c <;> revert major hi lo <;> decide

@[simp] theorem baseField_packByte : baseField (packByte g major hi lo) = hi := by
  obtain ⟨p, c⟩ := g
  cases p <;> cases c <;> revert major hi lo <;> decide

@[simp] theorem argField_packByte : argField (packByte g major hi lo) = lo := by
  obtain ⟨p, c⟩ := g
  cases p <;> cases c <;> revert major hi lo <;> decide

end

/-- A selector's field denotes it (30_encoding R54). -/
@[simp] theorem ofBits_toBits (r : Sel) : Sel.ofBits r.toBits = r := by
  cases r <;> rfl

/-- The low nibble of a two-register byte is `1111` for `[P]` and `[P]` only (30_encoding R52). -/
@[simp] theorem toBits_append_toBits_eq_ones (base arg : Sel) :
    (base.toBits ++ arg.toBits : Nibble) = 0b1111#4 ↔ Sel.bothMem base arg = true := by
  cases base <;> cases arg <;> decide

/-- A nibble from its two halves. -/
@[simp] theorem nibble_halves (n : Nibble) : n.extractLsb' 2 2 ++ n.extractLsb' 0 2 = n := by
  revert n
  decide

/-! ### Decoding and encoding -/

/-- Decoding reads back the fields that the encoding has packed (30_encoding R52, R56). -/
theorem decode_encode {i : Instr} (hwf : i.wf = true) : decode (encode i) = i := by
  cases i with
  | bit g base arg | onto g base arg =>
    have hb : Sel.bothMem base arg = false := by simpa [Instr.wf] using hwf
    simp [encode, decode, hb]
  | immd => simp [encode, decode]
  | load | nop | nop2 | halt => simp [encode, decode, decodeSingle, decodeZero]
  | mix | inc | dec => simp [encode, decode, decodeSingle]
  | setbp | setbip => simp [encode, decode]

/-- Settles O7: `decode_encode` is the statement. -/
theorem decodeEncode : Obligations.DecodeEncode :=
  fun _ => decode_encode

/-- The other round trip, over the 256 bytes (30_encoding R57). -/
theorem encode_decode (ib : Byte) : encode (decode ib) = ib := by
  revert ib
  decide

/-- Settles O8: the two facts about each byte. -/
theorem encodeDecode : Obligations.EncodeDecode :=
  fun ib => ⟨decode_wf ib, encode_decode ib⟩

/-- Settles O9, over the 256 bytes. -/
theorem decodeMatchesTable : Obligations.DecodeMatchesTable := by
  unfold Obligations.DecodeMatchesTable
  decide

/-- Settles O10: nine closed words. -/
theorem decodeSourceSpellings : Obligations.DecodeSourceSpellings := by
  unfold Obligations.DecodeSourceSpellings
  decide

/-- Settles O12: a well-formed term is what its byte decodes to, and the two others are given the
bank sets' meaning by `exec` (log 17). -/
theorem encodingKeepsMeaning : Obligations.EncodingKeepsMeaning := by
  intro i s
  by_cases hwf : i.wf = true
  · rw [decode_encode hwf]
  · cases i with
    | bit g base arg =>
      obtain ⟨rfl, rfl⟩ : base = .mem ∧ arg = .mem := by simpa [Instr.wf, bothMem_iff] using hwf
      show exec (decode (encode (.setbp g))) s = exec (.setbp g) s
      rw [decode_encode rfl]
    | onto g base arg =>
      obtain ⟨rfl, rfl⟩ : base = .mem ∧ arg = .mem := by simpa [Instr.wf, bothMem_iff] using hwf
      show exec (decode (encode (.setbip g))) s = exec (.setbip g) s
      rw [decode_encode rfl]
    | _ => exact absurd rfl hwf

/-! ### The assembler's line (30_encoding R59, R60) -/

/-- The mnemonic and operands of an instruction parse to it under its guard. -/
theorem parseBody_renderBody (i : Instr) : parseBody i.guard (renderBody i) = some i := by
  cases i with
  | immd g n => simp [renderBody, parseBody, Instr.guard, n.isLt]
  | _ => rfl

/-- No body starts with a commit mark. -/
theorem takeBang_renderBody (i : Instr) : takeBang (renderBody i) = (false, renderBody i) := by
  cases i <;> rfl

/-- The commit mark is read off the body (30_encoding R59). -/
theorem takeBang_prefixed (i : Instr) :
    takeBang ((if i.guard.commit then [Token.bang] else []) ++ renderBody i) =
      (i.guard.commit, renderBody i) := by
  cases i.guard.commit
  · exact takeBang_renderBody i
  · rfl

/-- A line whose sign reads as the predicate, before the commit mark and the body, parses to the
instruction (30_encoding R59). -/
theorem parseLine_of_takeSign {i : Instr} {ts : List Token}
    (h : takeSign ts =
      (i.guard.predicate, (if i.guard.commit then [Token.bang] else []) ++ renderBody i)) :
    parseLine ts = some i := by
  simp only [parseLine, h, takeBang_prefixed]
  exact parseBody_renderBody i

/-- The written sign. -/
theorem takeSign_renderLine (i : Instr) : takeSign (renderLine i) =
    (i.guard.predicate, (if i.guard.commit then [Token.bang] else []) ++ renderBody i) := by
  unfold renderLine
  cases i.guard.predicate <;> rfl

/-- The sign left out. -/
theorem takeSign_renderLine_tail (i : Instr) : takeSign (renderLine i).tail =
    (false, (if i.guard.commit then [Token.bang] else []) ++ renderBody i) := by
  unfold renderLine
  cases i.guard.commit
  · cases i <;> rfl
  · rfl

/-- Settles O11: both lines parse to the instruction. -/
theorem assembleRenderedLine : Obligations.AssembleRenderedLine := by
  intro i
  refine ⟨?_, fun hp => ?_⟩
  · rw [assemble, parseLine_of_takeSign (takeSign_renderLine i), Option.map_some]
  · rw [assemble, parseLine_of_takeSign (hp ▸ takeSign_renderLine_tail i), Option.map_some]

/-! ### Fetching an instruction (40_step R70, R71) -/

/-- A step whose fetched byte encodes a well-formed instruction runs it. -/
theorem step_of_fetch {s : State} {i : Instr} (hwf : i.wf = true) (h : fetch s = encode i) :
    step s = exec i s := by
  rw [step, h, decode_encode hwf]

/-- Settles O13: `fetch` is that read. -/
theorem stepRunsDecoded : Obligations.StepRunsDecoded :=
  fun _ _ => step_of_fetch

/-- The byte placed at the program counter is the one fetched there (log 18). -/
theorem fetch_withFetchWord {s : State} (hs : s.wf) (ib : Byte) :
    fetch (s.withFetchWord 8 ib.toNat) = ib := by
  have hib : BitVec.ofNat 8 (ib.toNat % 2 ^ 8) = ib := by
    rw [Nat.mod_eq_of_lt ib.isLt, BitVec.ofNat_toNat, BitVec.setWidth_eq]
  have hread := Memory.read_write (a := (globalAddr s.bank_IP s.IP).toNat)
    (b := (globalAddr s.bank_IP s.IP).toNat) (v := ib) hs
  rw [if_pos rfl] at hread
  rw [fetch, State.memRead_of_flat rfl, State.withFetchWord, hib]
  exact hread

/-- Placing a byte at the program counter keeps the canonical form. -/
theorem withFetchWord_wf {s : State} (hs : s.wf) (nbits w : Nat) : (s.withFetchWord nbits w).wf :=
  Memory.write_wf (globalAddr_toNat_lt _ _) hs

/-- Settles O14: the placed byte is fetched and decodes to the instruction. -/
theorem placedInstructionRuns : Obligations.PlacedInstructionRuns := by
  intro s i hs hwf
  exact ⟨step_of_fetch hwf (fetch_withFetchWord hs (encode i)), withFetchWord_wf hs _ _,
    rfl, rfl, rfl, rfl, rfl, rfl, rfl⟩

end Sys2Proof.Machine

/-!
PROOFS. The whole next state of an executed instruction in two cases, a result written or none, and
the statements that follow from it field by field.
-/
namespace Sys2Proof.Machine

/-! ### The executed state, said once -/

/-- The instruction sets `bank_P` when it is executed: `bit [P] [P]` under either name (44_bankset
R105; 30_encoding R60). -/
def setsBankP : Instr → Bool
  | .bit _ base arg => Sel.bothMem base arg
  | .setbp _ => true
  | _ => false

/-- What an executed `load` leaves in `I`, under both values of LOAD_I_MODE (46_load_nop_halt
R120). -/
def loadedI (s : State) : Byte :=
  if s.cfg.loadIMode = .shifted then s.A.extractLsb' 0 4 ++ 0#4 else s.A

/-- What an executed instruction leaves in `I` (40_step R77; 46_load_nop_halt R120). -/
def executedI (i : Instr) (s : State) : Byte :=
  if i.mnemonic = .load then loadedI s else nextI s (entering i)

/-- An executed `load` as one update (46_load_nop_halt R120). -/
theorem loadExecuted_eq (g : Guard) (s : State) :
    loadExecuted g s = { s with
      condition := if g.commit then !s.condition else s.condition
      I := loadedI s
      IP := s.IP + 1
      halted := false } := by
  unfold loadExecuted loadedI
  cases s.cfg.loadIMode
  · exact epilogue_commit_eq 0#4 g _ (s.setI s.A)
  · simp only [commit_eq]
    rfl

/-- An executed instruction that writes no result through a selector, as one update; the other ones
are `executedState_of_written`'s. -/
theorem executedState_of_unwritten {i : Instr} {s : State} (h : written i s = none) :
    executedState i s = { s with
      condition := if i.guard.commit then computedCondition i s else s.condition
      I := executedI i s
      IP := s.IP + 1
      bank_IP := if setsBankIP i then s.I else s.bank_IP
      bank_P := if setsBankP i then s.I else s.bank_P
      halted := i.mnemonic == .halt } := by
  cases i with
  | immd g n => exact epilogue_commit_eq n g false s
  | nop g | nop2 g => exact epilogue_commit_eq 0#4 g false s
  | halt g => exact congrArg (State.setHalted true) (epilogue_commit_eq 0#4 g false s)
  | load g => exact loadExecuted_eq g s
  | setbp g => exact setBankPFromI_eq g s
  | setbip g => exact setBankIPFromI_eq g s
  | mix | inc | dec => cases h
  | bit g base arg =>
    have hb : Sel.bothMem base arg = true := by simpa [written] using h
    simp only [executedState, computedCondition, setsBankP, hb, if_true]
    exact setBankPFromI_eq g s
  | onto g base arg =>
    have hb : Sel.bothMem base arg = true := by simpa [written] using h
    simp only [executedState, computedCondition, setsBankIP, hb, if_true]
    exact setBankIPFromI_eq g s

/-- What an instruction that writes its result through `r` does not do, and that it overrides the
advance exactly where `r` is `IP`. -/
structure WritesThrough (i : Instr) (r : Sel) : Prop where
  writesIP_eq : writesIP i = (r == .ip)
  setsBankIP_eq : setsBankIP i = false
  setsBankP_eq : setsBankP i = false
  entering_eq : entering i = 0#4
  mnemonic_ne_load : i.mnemonic ≠ .load
  mnemonic_ne_halt : i.mnemonic ≠ .halt
  readsCell_of_mem : r = .mem → readsCell i = true

/-- The selector in `written` is the one written through. -/
theorem writesThrough_of_written {i : Instr} {s : State} {r : Sel} {v : Byte}
    (h : written i s = some (r, v)) : WritesThrough i r := by
  cases i with
  | mix | inc | dec =>
    cases h
    exact ⟨rfl, rfl, rfl, rfl, nofun, nofun, beq_iff_eq.mpr⟩
  | bit g base arg | onto g base arg =>
    cases hb : Sel.bothMem base arg <;> simp only [written, hb] at h
    · cases h
      exact ⟨rfl, by simp [setsBankIP, hb], by simp [setsBankP, hb], rfl, nofun, nofun,
        by rintro rfl; simp [readsCell, hb]⟩
    · cases h
  | _ => cases h

/-- A retirement as one update of the state (10_state R19; 40_step R74, R76, R77). -/
theorem retire_update (g : Guard) (r : Sel) (v : Byte) (c : Bool) (s : State) :
    retire g r v c s = { s with
      condition := if g.commit then c else s.condition
      I := nextI s 0#4
      A := if r = .a then v else s.A
      IP := if r = .ip then v else s.IP + 1
      P := if r = .p then v else s.P
      mem := if r = .mem then (s.memWrite s.bank_P s.P v).mem else s.mem
      halted := false } := by
  rw [retire_eq]
  cases r <;> simp [nextI]

/-! ### The executed state, field by field -/

section

variable (i : Instr) (s : State)

theorem executedState_I : (executedState i s).I = executedI i s := by
  rcases hw : written i s with _ | ⟨r, v⟩
  · rw [executedState_of_unwritten hw]
  · have hi := writesThrough_of_written hw
    rw [executedState_of_written hw, retire_update, executedI, if_neg hi.mnemonic_ne_load,
      hi.entering_eq]

theorem executedState_bank_P :
    (executedState i s).bank_P = if setsBankP i then s.I else s.bank_P := by
  rcases hw : written i s with _ | ⟨r, v⟩
  · rw [executedState_of_unwritten hw]
  · rw [executedState_of_written hw, retire_update, (writesThrough_of_written hw).setsBankP_eq,
      if_neg Bool.false_ne_true]

theorem executedState_cfg : (executedState i s).cfg = s.cfg := by
  rcases hw : written i s with _ | ⟨r, v⟩
  · rw [executedState_of_unwritten hw]
  · rw [executedState_of_written hw, retire_update]

/-- `IP` after an executed instruction that does not override the advance (40_step R76). -/
theorem executedState_IP {i : Instr} (h : writesIP i = false) :
    (executedState i s).IP = s.IP + 1 := by
  rcases hw : written i s with _ | ⟨r, v⟩
  · rw [executedState_of_unwritten hw]
  · have hr : r ≠ .ip := by
      simpa [h] using (writesThrough_of_written hw).writesIP_eq
    rw [executedState_of_written hw, retire_update]
    exact if_neg hr

/-- The state with a store of a step from it performed, at the start-of-step `bank_P:P`. -/
def performed (s : State) (w : Option Store) : State :=
  w.elim s fun w => s.memWrite s.bank_P s.P w.value

/-- The memory after an executed instruction (20_memory R35 c). -/
theorem executedState_mem : (executedState i s).mem = (performed s (storeOf i s)).mem := by
  rcases hw : written i s with _ | ⟨r, v⟩
  · simp [executedState_of_unwritten hw, storeOf, hw, performed]
  · rw [executedState_of_written hw, retire_update]
    cases r <;> simp [storeOf, hw, performed]

end

/-! ### What `exec` and `step` can answer -/

/-- A next state is the executed one or, after a skipped instruction, the epilogue's. -/
theorem exec_next_cases {i : Instr} {s t : State} (h : exec i s = .next t) :
    i.guard.predicate = s.condition ∧ t = executedState i s ∨
      i.guard.predicate ≠ s.condition ∧ t = epilogue (entering i) s := by
  by_cases hp : i.guard.predicate = s.condition
  · rw [exec_executed i s hp] at h
    cases h
    exact .inl ⟨hp, rfl⟩
  · rw [exec_skipped i s hp] at h
    cases h
    exact .inr ⟨hp, rfl⟩

/-- Every instruction answers a next state (40_step R80). -/
theorem exec_total (i : Instr) (s : State) : ∃ t, exec i s = .next t :=
  ⟨_, exec_eq i s⟩

/-- Settles O15: a step is an `exec`. -/
theorem stepTotal : Obligations.StepTotal :=
  ⟨exec_total, fun s => exec_total (decode (fetch s)) s⟩

/-- Settles O47: neither outcome touches the parameters. -/
theorem stepKeepsParameters : Obligations.StepKeepsParameters := by
  intro s t h
  obtain ⟨-, rfl⟩ | ⟨-, rfl⟩ := exec_next_cases h
  · exact executedState_cfg _ s
  · rfl

/-! ### The store of a step (20_memory R35 c, 40_step R75) -/

theorem stepStore_of_executed {s : State}
    (h : (decode (fetch s)).guard.predicate = s.condition) :
    stepStore s = storeOf (decode (fetch s)) s :=
  if_pos (beq_iff_eq.mpr h)

theorem stepStore_of_skipped {s : State}
    (h : (decode (fetch s)).guard.predicate ≠ s.condition) : stepStore s = none :=
  if_neg fun he => h (beq_iff_eq.mp he)

/-- The memory after a step is the old one with the step's store performed. -/
theorem step_mem {s t : State} (h : step s = .next t) :
    t.mem = (performed s (stepStore s)).mem := by
  obtain ⟨hp, rfl⟩ | ⟨hp, rfl⟩ := exec_next_cases h
  · rw [stepStore_of_executed hp, executedState_mem]
  · rw [stepStore_of_skipped hp]
    rfl

/-- Performing a store keeps the canonical form. -/
theorem performed_wf {s : State} (hs : s.wf) : ∀ w, (performed s w).wf
  | none => hs
  | some w => memWrite_wf s.bank_P s.P w.value hs

/-- Settles O46: a step's memory is the old one with at most one write performed. -/
theorem stepKeepsWellFormed : Obligations.StepKeepsWellFormed := by
  intro s t hs h
  rw [State.wf, step_mem h]
  exact performed_wf hs (stepStore s)

/-! ### `IP`, `I` and the bank registers (40_step section 2, 10_state section 6) -/

/-- Settles O21: `IP` in each outcome of `exec`, and `exec_bank_IP`. -/
theorem advanceUnlessWritten : Obligations.AdvanceUnlessWritten := by
  intro i s hip
  obtain ⟨t, ht⟩ := exec_total i s
  refine ⟨t, ht, ?_, exec_bank_IP ht⟩
  obtain ⟨hp, rfl⟩ | ⟨-, rfl⟩ := exec_next_cases ht
  · exact executedState_IP s (Bool.eq_false_iff.mpr fun hw => hip ⟨hp, hw⟩)
  · rfl

/-- Only `load` has `load`'s mnemonic. -/
theorem mnemonic_eq_load_iff (i : Instr) : i.mnemonic = .load ↔ ∃ g, i = .load g := by
  cases i <;> simp [Instr.mnemonic]

/-- `I` after any instruction but an executed `load` (40_step R77). -/
theorem exec_I {i : Instr} {s t : State} (h : exec i s = .next t)
    (hl : ¬(i.guard.predicate = s.condition ∧ ∃ g, i = .load g)) :
    t.I = nextI s (entering i) := by
  obtain ⟨hp, rfl⟩ | ⟨-, rfl⟩ := exec_next_cases h
  · rw [executedState_I, executedI, if_neg fun hm => hl ⟨hp, (mnemonic_eq_load_iff i).mp hm⟩]
  · exact epilogue_I _ s

/-- Settles O22: `exec_I` is the rule. -/
theorem immediateShifts : Obligations.ImmediateShifts := by
  intro i s hl
  obtain ⟨t, ht⟩ := exec_total i s
  exact ⟨t, ht, exec_I ht hl⟩

/-- `bank_P` after any instruction: only an executed set of `bank_P` changes it. -/
theorem exec_bank_P {i : Instr} {s t : State} (h : exec i s = .next t) :
    t.bank_P =
      if i.guard.predicate = s.condition ∧ setsBankP i = true then s.I else s.bank_P := by
  obtain ⟨hp, rfl⟩ | ⟨hp, rfl⟩ := exec_next_cases h
  · simp [executedState_bank_P, hp]
  · simp [hp, epilogue_eq]

/-- Which bytes set `bank_IP` (44_bankset R106). -/
theorem setsBankIP_decode_iff (ib : Byte) :
    setsBankIP (decode ib) = true ↔ ib.extractLsb' 0 6 = 0b111111#6 := by
  revert ib
  decide

/-- Which bytes set `bank_P` (44_bankset R105). -/
theorem setsBankP_decode_iff (ib : Byte) :
    setsBankP (decode ib) = true ↔ ib.extractLsb' 0 6 = 0b101111#6 := by
  revert ib
  decide

/-- Settles O23: no byte sets both bank registers. -/
theorem bankRegistersChange : Obligations.BankRegistersChange := by
  intro s t h
  have hip := exec_bank_IP h
  have hp := exec_bank_P h
  have hguard : (decode (fetch s)).guard.predicate = (fetch s).getLsbD 7 := by
    rw [decode_guard]; rfl
  simp only [setsBankIP_decode_iff, hguard] at hip
  simp only [setsBankP_decode_iff, hguard] at hp
  constructor
  · intro hne
    split at hip
    · rename_i hset
      rw [if_neg (by simp [hset.2])] at hp
      exact ⟨hset.2, hset.1, hip, hp⟩
    · exact absurd hip hne
  · intro hne
    split at hp
    · rename_i hset
      rw [if_neg (by simp [hset.2])] at hip
      exact ⟨hset.2, hset.1, hp, hip⟩
    · exact absurd hp hne

end Sys2Proof.Machine

/-!
PROOFS. The equivalence law of 47_dataflow: the wires of the branch-free form, read as fields of the
encoded instruction, and its next state in the two cases of the branching form.
-/
namespace Sys2Proof.Machine

/-! ### The wires (47_dataflow R131) -/

/-- The operand multiplexer reads what the selector denotes. -/
@[simp] theorem hwSel_toBits (s : State) (r : Sel) : hwSel s r.toBits = readSel s r := by
  cases r <;> rfl

/-- The wires where the fetched byte is packed from fields. -/
theorem hwWires_of_fetch {s : State} {g : Guard} {major hi lo : Pair}
    (h : fetch s = packByte g major hi lo) : hwWires s =
      { predicate := g.predicate, commit := g.commit, major := major, lo := hi ++ lo,
        bsel := hi, asel := lo, base := hwSel s hi, arg := hwSel s lo } := by
  have hfields : hwWires s =
      { predicate := (guardField (fetch s)).predicate, commit := (guardField (fetch s)).commit,
        major := majorField (fetch s), lo := lowField (fetch s), bsel := baseField (fetch s),
        asel := argField (fetch s), base := hwSel s (baseField (fetch s)),
        arg := hwSel s (argField (fetch s)) } := rfl
  rw [hfields, h]
  simp

/-- The write port of R132 before the predicate: the selector and the result where an ALU
instruction is decoded. -/
def hwWritten (w : HwWires) (s : State) : Option (Pair × Byte) :=
  if hwIsOnto w || hwIsBit w || hwIsInc w || hwIsDec w || hwIsMix w then
    some (hwWsel w, hwResult w s)
  else none

theorem hwWritten_eq_none {w : HwWires} {s : State} (h : hwWritten w s = none) :
    hwWen w s = false := by
  unfold hwWritten at h
  split at h
  · cases h
  · rename_i he
    rw [hwWen, Bool.eq_false_iff.mpr he, Bool.and_false]

theorem hwWritten_eq_some {w : HwWires} {s : State} {x : Pair} {v : Byte}
    (h : hwWritten w s = some (x, v)) :
    hwWen w s = hwExec w s ∧ hwWsel w = x ∧ hwResult w s = v := by
  unfold hwWritten at h
  split at h
  · rename_i he
    cases h
    exact ⟨by rw [hwWen, he, Bool.and_true], rfl, rfl⟩
  · cases h

/-- The wires carry an instruction: each enable, and each result that an enable selects, is what the
branching form gives the instruction. -/
structure Carries (w : HwWires) (i : Instr) (s : State) : Prop where
  exec : hwExec w s = executes i.guard s
  commit : w.commit = i.guard.commit
  newcond : hwNewcond w s = computedCondition i s
  written : hwWritten w s = (written i s).map fun x => (x.1.toBits, x.2)
  load : hwIsLoad w = (i.mnemonic == .load)
  halt : hwIsHalt w = (i.mnemonic == .halt)
  nib : hwNib w = entering i
  bankIP : (hwBankset w && w.major == 0b11#2) = setsBankIP i
  bankP : (hwBankset w && w.major == 0b10#2) = setsBankP i

/-- The literal `1111` of the bank sets, as the branch-free form tests it. -/
theorem toBits_append_toBits_beq_ones (base arg : Sel) :
    ((base.toBits ++ arg.toBits : Nibble) == 0b1111#4) = Sel.bothMem base arg := by
  rw [Bool.eq_iff_iff, beq_iff_eq, toBits_append_toBits_eq_ones]

/-- The wires carry the instruction whose encoding is fetched (47_dataflow R131, R132): every enable
tests fields that the encoding packs as literals, and the bank sets' nibble. -/
theorem hwWires_carries {i : Instr} {s : State} (h : fetch s = encode i) :
    Carries (hwWires s) i s := by
  cases i <;> rw [hwWires_of_fetch h] <;> constructor <;>
    simp [hwExec, hwIsImmd, hwIsSingle, hwIsTwo, hwBankset, hwIsOnto, hwIsBit, hwIsInc, hwIsDec,
      hwIsMix, hwIsZero, hwIsLoad, hwIsHalt, hwResult, hwNewcond, hwWsel, hwNib, hwWritten,
      executes, Instr.guard, Instr.mnemonic, computedCondition, written, entering, setsBankIP,
      setsBankP, toBits_append_toBits_beq_ones]
  case bit.written base arg | onto.written base arg => cases Sel.bothMem base arg <;> rfl

/-! ### The next state and the outputs (47_dataflow R130, R132, R133) -/

/-- The shift of R133 is the concatenation of 40_step R77. -/
theorem shiftLeft_or_eq_append (i : Byte) (n : Nibble) :
    i <<< 4 ||| n.setWidth 8 = i.extractLsb' 0 4 ++ n :=
  congrArg State.I (shiftI_eq n (State.reset.setI i))

/-- `I'` of R133 is what the branching form leaves in `I`. -/
theorem hwNextI_eq {w : HwWires} {i : Instr} {s : State} (h : Carries w i s) :
    hwNextI w s = if executes i.guard s then executedI i s else nextI s (entering i) := by
  have hload : s.A <<< 4 = s.A.extractLsb' 0 4 ++ 0#4 := by
    simpa using shiftLeft_or_eq_append s.A 0#4
  rw [hwNextI, h.exec, h.load, h.nib, shiftLeft_or_eq_append, executedI, loadedI, nextI, hload]
  cases executes i.guard s <;> simp

section

variable {i : Instr} {s : State} (h : Carries (hwWires s) i s)
include h

/-- The branch-free form of a skipped instruction. -/
theorem stepHw_of_skipped (hp : executes i.guard s = false) :
    stepHw s = epilogue (entering i) s := by
  have hx := h.exec.trans hp
  have hI := hwNextI_eq h
  rw [hp] at hI
  simp [stepHw, hwWen, hwNextMem, hwMemWrite, hx, hI, epilogue_eq]

/-- The branch-free form of an executed instruction that writes no result. -/
theorem stepHw_of_unwritten (hp : executes i.guard s = true) (hw : written i s = none) :
    stepHw s = executedState i s := by
  have hx := h.exec.trans hp
  have hI := hwNextI_eq h
  rw [hp] at hI
  have hwen := hwWritten_eq_none (h.written.trans (by rw [hw]; rfl))
  rw [executedState_of_unwritten hw]
  simp [stepHw, hwNextMem, hwMemWrite, hwen, hx, hI, h.commit, h.newcond, h.bankIP, h.bankP, h.halt]

/-- The write port of R132 where a result is written: the enable, the selector, the result. -/
theorem hwPort_of_written {r : Sel} {v : Byte} (hp : executes i.guard s = true)
    (hw : written i s = some (r, v)) : hwWen (hwWires s) s = true ∧
      hwWsel (hwWires s) = r.toBits ∧ hwResult (hwWires s) s = v := by
  have hport := hwWritten_eq_some (h.written.trans (by rw [hw]; rfl))
  rwa [h.exec, hp] at hport

/-- The branch-free form of an executed instruction that writes its result through a selector. -/
theorem stepHw_of_written {r : Sel} {v : Byte} (hp : executes i.guard s = true)
    (hw : written i s = some (r, v)) : stepHw s = executedState i s := by
  have hx := h.exec.trans hp
  have hi := writesThrough_of_written hw
  have hI : hwNextI (hwWires s) s = nextI s 0#4 := by
    rw [hwNextI_eq h, if_pos hp, executedI, if_neg hi.mnemonic_ne_load, hi.entering_eq]
  obtain ⟨hwen, hwsel, hres⟩ := hwPort_of_written h hp hw
  rw [executedState_of_written hw, retire_update]
  cases r <;>
    simp [stepHw, hwNextMem, hwMemWrite, Sel.toBits, hwen, hwsel, hres, hx, hI, h.commit, h.newcond,
      h.bankIP, h.bankP, h.halt, hi.setsBankIP_eq, hi.setsBankP_eq, hi.mnemonic_ne_halt]

/-- The memory write of the branch-free form. -/
theorem stepHwStore_eq : stepHwStore s = if executes i.guard s then storeOf i s else none := by
  cases hp : executes i.guard s
  · have hx := h.exec.trans hp
    simp [stepHwStore, hwMemWrite, hwWen, hx]
  · rcases hw : written i s with _ | ⟨r, v⟩
    · have hwen := hwWritten_eq_none (h.written.trans (by rw [hw]; rfl))
      simp [stepHwStore, hwMemWrite, hwen, storeOf, hw]
    · obtain ⟨hwen, hwsel, hres⟩ := hwPort_of_written h hp hw
      cases r <;>
        simp [stepHwStore, hwMemWrite, Sel.toBits, hwen, hwsel, hres, storeOf, hw, dataAddr]

/-- Executed or skipped, with a result or without, the two forms leave one state. -/
theorem exec_eq_stepHw : exec i s = .next (stepHw s) := by
  rw [exec_eq]
  cases hp : executes i.guard s
  · rw [stepHw_of_skipped h hp]
    rfl
  · rcases hw : written i s with _ | ⟨r, v⟩
    · rw [stepHw_of_unwritten h hp hw, if_pos rfl]
    · rw [stepHw_of_written h hp hw, if_pos rfl]

end

/-- Settles O17: the wires carry the decoded instruction, whose encoding is the fetched byte. -/
theorem stepHwAgrees : Obligations.StepHwAgrees := by
  intro s
  have hc : Carries (hwWires s) (decode (fetch s)) s := hwWires_carries (encode_decode _).symm
  have hnext : step s = .next (stepHw s) := exec_eq_stepHw hc
  refine ⟨?_, hnext⟩
  rw [stepOutputs, hnext, stepHwOutputs, stepHwStore_eq hc]
  rfl

end Sys2Proof.Machine

/-!
PROOFS. The statements of 10_state, 20_memory and 70_reset about reset and the memory interface.
-/
namespace Sys2Proof.Machine

/-! ### Reset (10_state section 10) -/

/-- Settles O1: reset's fields, and an empty memory. -/
theorem resetState : Obligations.ResetState :=
  ⟨rfl, rfl, rfl, rfl, rfl, rfl, rfl, rfl, fun _ _ => rfl, rfl⟩

/-- Settles O45: reset's memory is empty. -/
theorem resetIsWellFormed : Obligations.ResetIsWellFormed :=
  (rfl : Memory.wf [] = true)

/-- The loaded memory is in canonical form, whichever kind is attached. -/
theorem loadedMemory_wf {rom : List Byte} (h : rom.length ≤ 65536) :
    ∀ kind, Memory.wf (loadedMemory kind rom) = true
  | .flat => imageCells_wfFrom (by omega)
  | .null => rfl

/-- Settles O3: only an image that fits leads to a next state, one with reset's registers. -/
theorem powerOnState : Obligations.PowerOnState := by
  intro cfg rom t h
  rcases Nat.lt_or_ge 65536 rom.length with hlen | hlen
  · rw [powerOn_of_length_gt cfg hlen] at h
    cases h
  · rw [powerOn_of_length_le cfg hlen] at h
    cases h
    exact ⟨rfl, rfl, rfl, rfl, rfl, rfl, rfl, rfl, loadedMemory_wf hlen _⟩

/-! ### Addresses (20_memory R30) -/

/-- No two pairs of bank and address share a global address. -/
theorem globalAddr_inj {b a b' a' : Byte} :
    globalAddr b a = globalAddr b' a' ↔ b = b' ∧ a = a' := by
  refine ⟨fun h => ?_, by rintro ⟨rfl, rfl⟩; rfl⟩
  have hnat := congrArg BitVec.toNat h
  rw [globalAddr_toNat, globalAddr_toNat] at hnat
  exact ⟨by bv_omega, by bv_omega⟩

/-- Settles O4: the address as a number, and its injectivity. -/
theorem globalAddressUnique : Obligations.GlobalAddressUnique :=
  ⟨globalAddr_toNat, fun _ _ _ _ => globalAddr_inj.mp⟩

/-! ### Reading after a write (20_memory R32, R33) -/

theorem memRead_of_null {s : State} (h : s.cfg.memKind = .null) (bank addr : Byte) :
    s.memRead bank addr = 0x00#8 := by
  rw [State.memRead, h]

theorem memWrite_of_null {s : State} (h : s.cfg.memKind = .null) (bank addr v : Byte) :
    s.memWrite bank addr v = s := by
  rw [State.memWrite, h]

/-- Settles O6: the null memory's read and write. -/
theorem nullMemoryDiscardsWrites : Obligations.NullMemoryDiscardsWrites :=
  fun _ bank addr v h => ⟨memRead_of_null h bank addr, memWrite_of_null h bank addr v⟩

theorem memWrite_of_flat {s : State} (h : s.cfg.memKind = .flat) (bank addr v : Byte) :
    s.memWrite bank addr v = s.setMem (Memory.write s.mem (globalAddr bank addr).toNat v) := by
  rw [State.memWrite, h]

/-- A read after a write to the flat memory. -/
theorem memRead_memWrite {s : State} (hs : s.wf) (h : s.cfg.memKind = .flat)
    (bank addr v bank' addr' : Byte) : (s.memWrite bank addr v).memRead bank' addr' =
      if bank' = bank ∧ addr' = addr then v else s.memRead bank' addr' := by
  have hw : (s.memWrite bank addr v).cfg.memKind = .flat := by rwa [memWrite_cfg]
  rw [State.memRead_of_flat hw, State.memRead_of_flat h, memWrite_of_flat h, State.setMem_mem,
    Memory.read_write hs]
  simp only [BitVec.toNat_inj, globalAddr_inj]

/-- Settles O5: the two cases of `memRead_memWrite`. -/
theorem flatWriteThenRead : Obligations.FlatWriteThenRead := by
  intro s bank addr v hs h
  refine ⟨?_, fun bank' addr' hne => ?_⟩
  · rw [memRead_memWrite hs h, if_pos ⟨rfl, rfl⟩]
  · rw [memRead_memWrite hs h, if_neg hne]

end Sys2Proof.Machine

/-!
PROOFS. The statements of 10_state section 8, 20_memory sections 2 and 4, 42_bit, 43_onto and
45_incdec_mix: the accesses of a step, and the instructions that write a result.
-/
namespace Sys2Proof.Machine

/-! ### The accesses of a step (20_memory R35, R45) -/

/-- The high byte of a global address is its bank (20_memory R37). -/
@[simp] theorem globalAddr_bank (bank addr : Byte) :
    (globalAddr bank addr).extractLsb' 8 8 = bank :=
  BitVec.extractLsb'_append_eq_left

/-- The low byte of a global address is its address in the bank. -/
@[simp] theorem globalAddr_addr (bank addr : Byte) :
    (globalAddr bank addr).extractLsb' 0 8 = addr :=
  BitVec.extractLsb'_append_eq_right

/-- A store of a step is at the start-of-step `bank_P:P`. -/
theorem stepStore_addr {s : State} {w : Store} (h : stepStore s = some w) :
    w.addr = globalAddr s.bank_P s.P := by
  unfold stepStore at h
  split at h
  · exact (storeOf_eq_some_iff.mp h).1
  · cases h

/-- Whether a step reads the cell `[P]` as an operand (20_memory R35 b, 40_step R75). -/
def stepReads (s : State) : Bool :=
  executes (decode (fetch s)).guard s && readsCell (decode (fetch s))

/-- The accesses of a step: the fetch, the read if there is one, the store if there is one. -/
theorem accesses_eq (s : State) : accesses s =
    .fetch (globalAddr s.bank_IP s.IP) ::
      ((if stepReads s then [.read (globalAddr s.bank_P s.P)] else []) ++
        ((stepStore s).map fun w => Access.write w.addr w.value).toList) := by
  unfold accesses stepReads stepStore dataAccesses
  cases executes (decode (fetch s)).guard s <;> simp [dataAddr]

/-- An instruction that stores to `[P]` reads it too. -/
theorem stepReads_of_store {s : State} {w : Store} (h : stepStore s = some w) :
    stepReads s = true := by
  unfold stepStore at h
  split at h
  · rename_i hp
    have hw := (storeOf_eq_some_iff.mp h).2
    rw [stepReads, hp, (writesThrough_of_written hw).readsCell_of_mem rfl]
    rfl
  · cases h

/-- Applying a step's accesses performs its store (20_memory R38: reads have no effect). -/
theorem foldl_apply_accesses (s : State) :
    (accesses s).foldl Access.apply s = performed s (stepStore s) := by
  rw [accesses_eq]
  rcases hw : stepStore s with _ | w
  · cases stepReads s <;> rfl
  · have ha := stepStore_addr hw
    cases stepReads s <;> simp [Access.apply, performed, ha]

/-- The write among a step's accesses is its store. -/
theorem write_mem_accesses_iff (s : State) (w : Store) :
    Access.write w.addr w.value ∈ accesses s ↔ stepStore s = some w := by
  obtain ⟨a, v⟩ := w
  rw [accesses_eq]
  rcases stepStore s with _ | ⟨a', v'⟩ <;> cases stepReads s <;> simp [eq_comm]

/-- Settles O41: `step_mem`, and the three shapes of `accesses_eq`. -/
theorem stepAccesses : Obligations.StepAccesses := by
  intro s
  obtain ⟨t, ht⟩ := exec_total (decode (fetch s)) s
  refine ⟨t, ht, by rw [foldl_apply_accesses, step_mem ht], ?_⟩
  rw [accesses_eq]
  rcases hw : stepStore s with _ | w
  · cases stepReads s
    · exact .inl rfl
    · exact .inr (.inl rfl)
  · rw [stepReads_of_store hw]
    exact .inr (.inr ⟨w.value, by simp [stepStore_addr hw]⟩)

/-- When a step has a store (20_memory R35 c). -/
theorem stepStore_isSome_iff (s : State) : (stepStore s).isSome = true ↔
    (decode (fetch s)).guard.predicate = s.condition ∧
      ∃ v, written (decode (fetch s)) s = some (.mem, v) := by
  by_cases hp : (decode (fetch s)).guard.predicate = s.condition
  · rw [stepStore_of_executed hp, Option.isSome_iff_exists, and_iff_right hp]
    constructor
    · rintro ⟨w, hw⟩
      exact ⟨w.value, (storeOf_eq_some_iff.mp hw).2⟩
    · rintro ⟨v, hv⟩
      exact ⟨⟨dataAddr s, v⟩, storeOf_eq_some_iff.mpr ⟨rfl, hv⟩⟩
  · simp [stepStore_of_skipped hp, hp]

/-- Settles O42: `step_mem` says what the memory is in each of the two cases. -/
theorem stepStoreIsPerformed : Obligations.StepStoreIsPerformed := by
  intro s
  obtain ⟨t, ht⟩ := exec_total (decode (fetch s)) s
  have hmem : t.mem = (performed s (stepStore s)).mem := step_mem ht
  refine ⟨t, ht, stepStore_isSome_iff s, fun hn => ?_,
    fun w => ⟨(write_mem_accesses_iff s w).symm, fun hw => ⟨stepStore_addr hw, ?_⟩⟩⟩
  · rw [hmem, hn]
    rfl
  · rw [hmem, hw]
    rfl

/-! ### Retirement of a result (10_state R19, R20) -/

/-- A memory read sees the contents and the parameters only. -/
theorem memRead_congr {s t : State} (hmem : t.mem = s.mem) (hcfg : t.cfg = s.cfg)
    (bank addr : Byte) : t.memRead bank addr = s.memRead bank addr := by
  rw [State.memRead, State.memRead, hmem, hcfg]

/-- After a retirement through `[P]` the memory reads as after its write. -/
theorem memRead_retire_mem (g : Guard) (v : Byte) (c : Bool) (s : State) (bank addr : Byte) :
    (retire g .mem v c s).memRead bank addr = (s.memWrite s.bank_P s.P v).memRead bank addr :=
  memRead_congr (by simp [retire_update]) (by simp [retire_update]) bank addr

/-- After a retirement through a register the memory reads as before. -/
theorem memRead_retire_of_ne_mem {r : Sel} (hr : r ≠ .mem) (g : Guard) (v : Byte) (c : Bool)
    (s : State) (bank addr : Byte) :
    (retire g r v c s).memRead bank addr = s.memRead bank addr :=
  memRead_congr (by simp [retire_update, hr]) (by simp [retire_update]) bank addr

section

variable {s : State} (hs : s.wf) (g : Guard) {r : Sel} (v : Byte) (c : Bool) {bank addr : Byte}
include hs

/-- The result stands in the cell that a retirement stores to. -/
theorem memRead_retire_of_storesTo (h : StoresTo r s bank addr) :
    (retire g r v c s).memRead bank addr = v := by
  obtain ⟨rfl, hk, rfl, rfl⟩ := h
  rw [memRead_retire_mem, memRead_memWrite hs hk, if_pos ⟨rfl, rfl⟩]

/-- Every other cell is as before. -/
theorem memRead_retire_of_not_storesTo (h : ¬StoresTo r s bank addr) :
    (retire g r v c s).memRead bank addr = s.memRead bank addr := by
  by_cases hr : r = .mem
  · subst hr
    rw [memRead_retire_mem]
    cases hk : s.cfg.memKind
    · rw [memRead_memWrite hs hk, if_neg fun ha => h ⟨rfl, hk, ha⟩]
    · rw [memWrite_of_null hk]
  · exact memRead_retire_of_ne_mem hr g v c s bank addr

/-- A retirement changes what `Retired` says, and nothing else. -/
theorem retired_retire : Retired g r v c s (retire g r v c s) where
  acc := by rw [retire_update]
  ip := by rw [retire_update]
  ptr := by rw [retire_update]
  stored _ _ := memRead_retire_of_storesTo hs g v c
  kept _ _ := memRead_retire_of_not_storesTo hs g v c
  flag := by rw [retire_update]
  imm := by rw [retire_update]
  bankIP := by rw [retire_update]
  bankP := by rw [retire_update]
  params := by rw [retire_update]
  output := by rw [retire_update]

end

/-- An executed instruction that writes a result retires it. -/
theorem exec_retires {i : Instr} {s : State} {r : Sel} {v : Byte} (hs : s.wf)
    (hp : i.guard.predicate = s.condition) (hw : written i s = some (r, v)) :
    ∃ t, exec i s = .next t ∧ Retired i.guard r v (computedCondition i s) s t := by
  refine ⟨_, exec_executed i s hp, ?_⟩
  rw [executedState_of_written hw]
  exact retired_retire hs i.guard v _

/-- An executed instruction that writes none keeps `A`, `P` and memory, and advances `IP`. -/
theorem exec_keeps_of_unwritten {i : Instr} {s : State}
    (hp : i.guard.predicate = s.condition) (hw : written i s = none) :
    ∃ t, exec i s = .next t ∧ t.A = s.A ∧ t.P = s.P ∧ t.mem = s.mem ∧ t.IP = s.IP + 1 := by
  refine ⟨_, exec_executed i s hp, ?_⟩
  rw [executedState_of_unwritten hw]
  exact ⟨rfl, rfl, rfl, rfl⟩

section

variable (g : Guard) {base arg : Sel} (s : State) (h : ¬(base = .mem ∧ arg = .mem))
include h

/-- What `bit` writes outside the bank set's corner (42_bit R95). -/
theorem written_bit : written (.bit g base arg) s = some (base,
    bitResult s.cfg.bitIndexOrder s.I (readSel s base) (readSel s arg)) :=
  if_neg (mt (bothMem_iff base arg).mp h)

/-- What `onto` writes outside the bank set's corner (43_onto R100). -/
theorem written_onto : written (.onto g base arg) s = some (base,
    ontoResult s.I (readSel s base) (readSel s arg)) :=
  if_neg (mt (bothMem_iff base arg).mp h)

theorem computedCondition_bit : computedCondition (.bit g base arg) s = bitTest s.I
    (bitResult s.cfg.bitIndexOrder s.I (readSel s base) (readSel s arg)) :=
  if_neg (mt (bothMem_iff base arg).mp h)

theorem computedCondition_onto : computedCondition (.onto g base arg) s =
    ontoCarry s.I (readSel s base) (readSel s arg) :=
  if_neg (mt (bothMem_iff base arg).mp h)

end

/-- Settles O44: each form's result, and the two cases of an executed instruction. -/
theorem writtenThroughDestination : Obligations.WrittenThroughDestination := by
  refine ⟨fun g r s => ⟨⟨_, rfl⟩, ⟨_, rfl⟩, ⟨_, rfl⟩⟩,
    fun g base arg s h => ⟨⟨_, written_bit g s h⟩, ⟨_, written_onto g s h⟩⟩, fun i s hp => ?_⟩
  split
  · rename_i hw
    exact fun hs => exec_retires hs hp hw
  · rename_i hw
    exact exec_keeps_of_unwritten hp hw

/-- Settles O43: the retired `IP` is one further in an unchanged bank, which is where the result has
been stored. -/
theorem storeSeenByNextFetch : Obligations.StoreSeenByNextFetch := by
  intro i s v hs hflat hp hw haddr
  obtain ⟨t, ht, hret⟩ := exec_retires hs hp hw
  have hip : t.IP = s.IP + 1 := hret.ip
  refine ⟨t, ht, by rw [hret.bankIP, hip, haddr], ?_⟩
  rw [fetch, hret.bankIP, hip]
  obtain ⟨hbank, hoff⟩ := globalAddr_inj.mp haddr
  exact hret.stored _ _ ⟨rfl, hflat, hbank, hoff⟩

end Sys2Proof.Machine

/-!
PROOFS. The results and computed conditions of the five ALU operations, and the statements about
their instructions (42_bit, 43_onto, 45_incdec_mix).
-/
namespace Sys2Proof.Machine

/-! ### Addition and subtraction (40_step R83) -/

theorem incResult_toNat (i a : Byte) : (incResult i a).toNat = (a.toNat + i.toNat) % 256 :=
  BitVec.toNat_ofNat ..

theorem decResult_eq_sub (i a : Byte) : decResult i a = a - i := by
  apply BitVec.eq_of_toNat_eq
  rw [decResult, BitVec.toNat_ofNat, BitVec.toNat_sub]
  congr 1
  have hi := i.isLt
  omega

theorem ontoResult_toNat (i b a : Byte) :
    (ontoResult i b a).toNat = (b.toNat + a.toNat + i.toNat) % 256 := by
  rw [ontoResult, ontoSecond, ontoFirst, BitVec.toNat_ofNat]
  omega

/-- The two sequential carries of `onto` are that of the exact sum (43_onto R100). -/
theorem ontoCarry_eq (i b a : Byte) :
    ontoCarry i b a = decide (256 ≤ b.toNat + a.toNat + i.toNat) := by
  rw [ontoCarry, ontoSecond, ontoFirst, ← Bool.decide_or, decide_eq_decide]
  omega

/-- Settles O33: the sum and its carry, retired. -/
theorem incEffect : Obligations.IncEffect := by
  intro g r s hs hp
  obtain ⟨t, ht, hret⟩ := exec_retires (i := .inc g r) hs hp rfl
  exact ⟨t, _, ht, incResult_toNat _ _, hret⟩

/-- Settles O34: the difference and its borrow, retired. -/
theorem decEffect : Obligations.DecEffect := by
  intro g r s hs hp
  obtain ⟨t, ht, hret⟩ := exec_retires (i := .dec g r) hs hp rfl
  rw [decResult_eq_sub] at hret
  exact ⟨t, ht, hret⟩

/-- Settles O37: the sum of three and its carry, retired. -/
theorem ontoEffect : Obligations.OntoEffect := by
  intro g base arg s hne hs hp
  obtain ⟨t, ht, hret⟩ := exec_retires (i := .onto g base arg) hs hp (written_onto g s hne)
  rw [computedCondition_onto g s hne, ontoCarry_eq] at hret
  exact ⟨t, _, ht, ontoResult_toNat _ _ _, hret⟩

/-! ### `mix` (45_incdec_mix R112) -/

/-- The bits of a group. -/
theorem group_getLsbD (x : Byte) (k : Nat) {h : Nat} (hh : h < 2) :
    (group x k).getLsbD h = x.getLsbD (2 * k + h) := by
  rw [group, BitVec.getLsbD_extractLsb', decide_eq_true hh, Bool.true_and]

/-- The number of a group, its higher bit the more significant (D13, log 12). -/
theorem group_toNat (x : Byte) (k : Nat) : (group x k).toNat =
    2 * (x.getLsbD (2 * k + 1)).toNat + (x.getLsbD (2 * k)).toNat := by
  have hbits : ∀ y : Pair, y.toNat = 2 * (y.getLsbD 1).toNat + (y.getLsbD 0).toNat := by decide
  rw [hbits, group_getLsbD x k (by omega), group_getLsbD x k (by omega)]
  rfl

/-- The bits of the result of `mix`. -/
theorem mixResult_getLsbD (i a : Byte) {k h : Nat} (hk : k < 4) (hh : h < 2) :
    (mixResult i a).getLsbD (2 * k + h) = a.getLsbD
      (2 * (2 * (i.getLsbD (2 * k + 1)).toNat + (i.getLsbD (2 * k)).toNat) + h) := by
  rw [← group_getLsbD _ _ hh, group_mixResult i a hk, group_getLsbD _ _ hh, group_toNat]

/-- Settles O35: the selected bits and the zero test, retired. -/
theorem mixEffect : Obligations.MixEffect := by
  intro g r s hs hp
  obtain ⟨t, ht, hret⟩ := exec_retires (i := .mix g r) hs hp rfl
  exact ⟨t, _, ht, fun k h => mixResult_getLsbD _ _, hret⟩

/-- Settles O40, over the 256 operands. -/
theorem mixSelections : Obligations.MixSelections := by
  unfold Obligations.MixSelections
  decide

/-! ### `bit` (42_bit R95) -/

/-- The number of the result bit that `bit` tests is `I[6:4]`. -/
theorem bitTest_eq (i r : Byte) :
    bitTest i r = (r.getLsbD (i.toNat / 16 % 8) == i.getLsbD 7) := by
  rw [bitTest, BitVec.extractLsb'_toNat, Nat.shiftRight_eq_div_pow]

/-- Settles O36: the indexed bits and the bit test, retired. -/
theorem bitEffect : Obligations.BitEffect := by
  intro g base arg s hne hs hp
  obtain ⟨t, ht, hret⟩ := exec_retires (i := .bit g base arg) hs hp (written_bit g s hne)
  rw [computedCondition_bit g s hne, bitTest_eq] at hret
  refine ⟨t, _, ht, fun k hk => ?_, hret⟩
  rw [bitResult_getLsbD _ _ _ _ hk]
  cases s.cfg.bitIndexOrder <;> rfl

/-- The truth table of a bitwise function is the nibble whose bit `2x + y` is its value at `x`,
`y`: with it in `I[3:0]`, `bit` under `base_msb` computes the function (42_bit R95). -/
theorem bitResult_baseMsb_eq {i b a r : Byte} {t : Nibble} (f : Bool → Bool → Bool)
    (ht : i.extractLsb' 0 4 = t) (hf : ∀ x y, t.getLsbD (2 * x.toNat + y.toNat) = f x y)
    (hr : ∀ k < 8, r.getLsbD k = f (b.getLsbD k) (a.getLsbD k)) :
    bitResult .baseMsb i b a = r := by
  have hindex (x y : Bool) : i.getLsbD (2 * x.toNat + y.toNat) = f x y := by
    rw [← hf, ← ht, BitVec.getLsbD_extractLsb', Nat.zero_add]
    cases x <;> cases y <;> rfl
  refine BitVec.eq_of_getLsbD_eq fun k hk => ?_
  rw [bitResult_getLsbD _ _ _ _ hk, hr k hk]
  exact hindex _ _

/-- Settles O38: each table is that of a function of two bits, and the byte that 42_bit names
computes this function in each position. -/
theorem bitTruthTables : Obligations.BitTruthTables := by
  intro i b a
  refine ⟨fun ht => bitResult_baseMsb_eq (fun _ _ => false) ht (by decide) ?_,
    fun ht => bitResult_baseMsb_eq (fun x y => !(x || y)) ht (by decide) ?_,
    fun ht => bitResult_baseMsb_eq (fun x y => !x && y) ht (by decide) ?_,
    fun ht => bitResult_baseMsb_eq (fun x _ => !x) ht (by decide) ?_,
    fun ht => bitResult_baseMsb_eq (fun x y => x && !y) ht (by decide) ?_,
    fun ht => bitResult_baseMsb_eq (fun _ y => !y) ht (by decide) ?_,
    fun ht => bitResult_baseMsb_eq (fun x y => x ^^ y) ht (by decide) ?_,
    fun ht => bitResult_baseMsb_eq (fun x y => !(x && y)) ht (by decide) ?_,
    fun ht => bitResult_baseMsb_eq (fun x y => x && y) ht (by decide) ?_,
    fun ht => bitResult_baseMsb_eq (fun x y => !(x ^^ y)) ht (by decide) ?_,
    fun ht => bitResult_baseMsb_eq (fun _ y => y) ht (by decide) ?_,
    fun ht => bitResult_baseMsb_eq (fun x y => !x || y) ht (by decide) ?_,
    fun ht => bitResult_baseMsb_eq (fun x _ => x) ht (by decide) ?_,
    fun ht => bitResult_baseMsb_eq (fun x y => x || !y) ht (by decide) ?_,
    fun ht => bitResult_baseMsb_eq (fun x y => x || y) ht (by decide) ?_,
    fun ht => bitResult_baseMsb_eq (fun _ _ => true) ht (by decide)
      fun k hk => by interval_cases k <;> rfl⟩ <;>
    intro k hk <;> simp [hk]

/-- Under the other order the index has its two bits exchanged (D4, log 5). -/
theorem bitIndex_argMsb (b a : Bool) : bitIndex .argMsb b a = bitIndex .baseMsb a b := rfl

/-- Settles O39: exchanging the operand bits exchanges the indices 1 and 2 and no other. -/
theorem bitIndexOrderSwaps : Obligations.BitIndexOrderSwaps := by
  intro i b a
  have hswap : bitResult .argMsb i b a = bitResult .baseMsb i a b := by
    simp only [bitResult, bitIndex_argMsb]
  refine ⟨hswap, fun hmid => ?_⟩
  have hindex (x y : Bool) :
      i.getLsbD (bitIndex .baseMsb y x) = i.getLsbD (bitIndex .baseMsb x y) := by
    cases x <;> cases y
    · rfl
    · exact hmid.symm
    · exact hmid
    · rfl
  rw [hswap]
  simp only [bitResult, hindex]

end Sys2Proof.Machine

/-!
PROOFS. The statements of 41_immd, the rest of 46_load_nop_halt and the runs of 40_step section 4.
-/
namespace Sys2Proof.Machine

/-- Settles O16: the four cases of `readSel`. -/
theorem selectorDenotes : Obligations.SelectorDenotes :=
  fun _ => ⟨rfl, rfl, rfl, rfl⟩

/-! ### `immd` (41_immd R90, R91) -/

/-- `immd` as one update, executed or skipped (D8, log 10). -/
theorem exec_immd (g : Guard) (n : Nibble) (s : State) :
    exec (.immd g n) s = .next { s with
      condition := if g.predicate = s.condition ∧ g.commit = true then false else s.condition
      I := nextI s n
      IP := s.IP + 1
      halted := false } := by
  by_cases hp : g.predicate = s.condition
  · rw [exec_executed (.immd g n) s hp, executedState, epilogue_commit_eq]
    simp [hp]
  · rw [exec_skipped_eq (i := .immd g n) hp, if_neg fun h => hp h.1]
    rfl

/-- Settles O24: `exec_immd` is the statement. -/
theorem immdEffect : Obligations.ImmdEffect :=
  exec_immd

/-- The number of a byte in its two nibbles. -/
theorem toNat_append_nibbles (x y : Nibble) :
    (x ++ y : Byte).toNat = 16 * x.toNat + y.toNat := by
  revert x y
  decide

/-- What an `immd` leaves in `I` depends on the low nibble that it finds there. -/
theorem exec_immd_I {s : State} {low : Nibble} (h : s.I.extractLsb' 0 4 = low) (g : Guard)
    (n : Nibble) :
    ∃ t, exec (.immd g n) s = .next t ∧ t.I.toNat = 16 * low.toNat + n.toNat :=
  ⟨_, exec_immd g n s, by rw [nextI, h, toNat_append_nibbles]⟩

/-- Settles O25: the first `immd` leaves its nibble in `I[3:0]`. -/
theorem immdTwice : Obligations.ImmdTwice := by
  intro g₁ g₂ n₁ n₂ s
  obtain ⟨t, ht⟩ := exec_total (.immd g₁ n₁) s
  have hlow : t.I.extractLsb' 0 4 = n₁ := by
    rw [exec_I ht nofun, nextI_low, entering]
  obtain ⟨u, hu, hI⟩ := exec_immd_I hlow g₂ n₂
  exact ⟨t, u, ht, hu, hI⟩

/-- A step that is neither an `immd` nor an executed `load` under `bypass` leaves 0 in `I[3:0]`. -/
theorem exec_I_low {i : Instr} {s t : State} (h : exec i s = .next t)
    (himmd : ∀ g n, i ≠ .immd g n)
    (hload : ¬((∃ g, i = .load g) ∧ i.guard.predicate = s.condition ∧
      s.cfg.loadIMode = .bypass)) : t.I.extractLsb' 0 4 = 0#4 := by
  by_cases hl : i.guard.predicate = s.condition ∧ ∃ g, i = .load g
  · obtain ⟨hp, g, rfl⟩ := hl
    have hmode : s.cfg.loadIMode = .shifted := by
      cases hm : s.cfg.loadIMode
      · rfl
      · exact absurd ⟨⟨g, rfl⟩, hp, hm⟩ hload
    rw [exec_executed _ s hp] at h
    cases h
    rw [executedState_I, executedI, Instr.mnemonic, if_pos rfl, loadedI, if_pos hmode]
    exact BitVec.extractLsb'_append_eq_right
  · rw [exec_I h hl, nextI_low, entering_of_ne_immd himmd]

/-- Settles O26: 0 stands in `I[3:0]` when the `immd` comes. -/
theorem immdAfterOther : Obligations.ImmdAfterOther := by
  intro i g n s himmd hload
  obtain ⟨t, ht⟩ := exec_total i s
  obtain ⟨u, hu, hI⟩ := exec_immd_I (exec_I_low ht himmd hload) g n
  exact ⟨t, u, ht, hu, by rw [hI]; exact Nat.zero_add _⟩

/-! ### `load` and `nop2` (46_load_nop_halt R120, R122) -/

/-- Settles O27: `loadExecuted_eq` under each value of LOAD_I_MODE. -/
theorem loadEffect : Obligations.LoadEffect := by
  intro g s hp
  rw [exec_executed (.load g) s hp, executedState, loadExecuted_eq, loadedI]
  cases s.cfg.loadIMode <;> rfl

/-- Settles O29: the two no-ops have one meaning, and the executed one is the commit and the
epilogue. -/
theorem nop2Effect : Obligations.Nop2Effect := by
  refine ⟨fun _ _ => rfl, fun g s hp => ?_⟩
  rw [exec_executed (.nop2 g) s hp]
  exact congrArg _ (epilogue_commit_eq 0#4 g false s)

/-! ### Runs (40_step R82) -/

/-- A run under a step count ends with a halting step. -/
theorem runFor_of_halted {s t : State} (h : step s = .next t) (ht : t.halted = true) (n : Nat) :
    runFor (n + 1) s = .next t := by
  rw [runFor, h]
  exact if_pos ht

/-- It goes on after another step. -/
theorem runFor_of_running {s t : State} (h : step s = .next t) (ht : t.halted = false) (n : Nat) :
    runFor (n + 1) s = runFor n t := by
  rw [runFor, h]
  exact if_neg (Bool.eq_false_iff.mp ht)

/-- Settles O48, by induction on the run: its length is the step count. -/
theorem runEndIsObserved : Obligations.RunEndIsObserved := by
  intro s t h
  induction h with
  | last h halts =>
    refine ⟨1, fun m hm => ?_⟩
    obtain ⟨m, rfl⟩ := Nat.exists_eq_add_of_le' hm
    exact runFor_of_halted h halts m
  | more h goesOn _ ih =>
    obtain ⟨n, hn⟩ := ih
    refine ⟨n + 1, fun m hm => ?_⟩
    obtain ⟨m, rfl⟩ := Nat.exists_eq_add_of_le' (Nat.one_le_of_lt hm)
    rw [runFor_of_running h goesOn]
    exact hn m (Nat.le_of_succ_le_succ hm)

/-! ### The zero bank (70_reset section 4) -/

/-- Every byte of the code bank reads 0. -/
def ZeroBank (s : State) : Prop := ∀ addr : Byte, s.memRead s.bank_IP addr = 0x00#8

/-- In a zero bank every step runs `immd 0`, which does not halt and leaves the bank as it is. -/
theorem step_zeroBank {s t : State} (hz : ZeroBank s) (h : step s = .next t) :
    t.halted = false ∧ ZeroBank t := by
  have hfetch : fetch s = encode (.immd ⟨false, false⟩ 0#4) := hz s.IP
  rw [step_of_fetch rfl hfetch, exec_immd] at h
  cases h
  exact ⟨rfl, hz⟩

/-- Settles O49, by induction on the run that would end. -/
theorem zeroBankNeverEnds : Obligations.ZeroBankNeverEnds := by
  rintro s hz ⟨t, hrun⟩
  replace hz : ZeroBank s := hz
  induction hrun with
  | last h halts => exact absurd halts (Bool.eq_false_iff.mp (step_zeroBank hz h).1)
  | more h _ _ ih => exact ih (step_zeroBank hz h).2

/-! ### The pair of `halt`s (46_load_nop_halt R123) -/

/-- After a skipped instruction the next byte of the bank is fetched under the same condition. -/
theorem exec_skipped_fetch {i : Instr} {s : State} (h : i.guard.predicate ≠ s.condition) :
    ∃ t, exec i s = .next t ∧ t.condition = s.condition ∧ t.halted = false ∧
      fetch t = s.memRead s.bank_IP (s.IP + 1) :=
  ⟨_, exec_skipped_eq h, rfl, rfl, rfl⟩

/-- An executed `halt` without the commit bit ends the run and keeps the condition. -/
theorem step_halt {s : State} (h : fetch s = encode (.halt ⟨s.condition, false⟩)) :
    ∃ t, step s = .next t ∧ t.halted = true ∧ t.condition = s.condition :=
  ⟨_, (step_of_fetch rfl h).trans (exec_halt_executed rfl), rfl, rfl⟩

/-- Settles O50: with condition 0 the first `halt` is executed; with condition 1 it is skipped, and
the second, one further in the same bank, is executed. -/
theorem haltPairEndsRun : Obligations.HaltPairEndsRun := by
  intro s hfst hsnd
  cases hc : s.condition
  · obtain ⟨t, ht, hhalt, hcond⟩ := step_halt (s := s) (by rw [hc]; exact hfst)
    exact ⟨t, .last ht hhalt, runFor_of_halted ht hhalt 1, hcond.trans hc⟩
  · obtain ⟨t, ht, hcond, hrun, hfetch⟩ :=
      exec_skipped_fetch (i := .halt ⟨false, false⟩) (s := s) (by simp [hc, Instr.guard])
    have hs : step s = .next t :=
      (step_of_fetch (s := s) (i := .halt ⟨false, false⟩) rfl hfst).trans ht
    obtain ⟨u, hu, hhalt, hcond'⟩ :=
      step_halt (s := t) (by rw [hcond, hc]; exact hfetch.trans hsnd)
    exact ⟨u, .more hs hrun (.last hu hhalt),
      (runFor_of_running hs hrun 1).trans (runFor_of_halted hu hhalt 0),
      hcond'.trans (hcond.trans hc)⟩

end Sys2Proof.Machine
